-- ==== Sys2Proof/Word.lean ====
section
/-! DEFINITION. The words of the machine and their widths (spec/00_scope.md R7, R9 to R11). -/

namespace Sys2Proof

/-- One byte of memory (20_memory.md R40: "Each byte is 8 bits"). -/
abbrev Byte := BitVec 8

/-- One instruction word (30_encoding.md R60: "Every instruction is one 32-bit word"). -/
abbrev InstrWord := BitVec 32

/-- The register width parameter XLEN: "OPEN, one of 32 or 64" (00_scope.md R7, D2). -/
inductive Xlen where
  | x32
  | x64
  deriving DecidableEq, Repr

/-- The width in bits of every general register, of the pc and of every CSR (00_scope.md R7). -/
def Xlen.bits : Xlen → Nat
  | .x32 => 32
  | .x64 => 64

/-- A general register's number: "the 5-bit rd, rs1 and rs2 fields" (10_state.md R21). -/
abbrev RegIdx := Fin 32

/-- A CSR's address: "addressed by the 12-bit csr field" (10_state.md R27). -/
abbrev CsrAddr := Fin 4096

/-- CSRRWI's immediate: "an integer in [0, 31]" (30_encoding.md R68). -/
abbrev Uimm := Fin 32

end Sys2Proof
end

