-- ==== Sys2Proof/Syntax.lean ====
section
/-! DEFINITION. The instructions: one constructor for each row of spec/opcode_table.json, and the classifier's eight
outcomes (30_encoding.md R74). -/

namespace Sys2Proof

/-- What the classifier answers for a word (30_encoding.md R74): one of the seven mnemonics, or `Unimplemented`. -/
inductive InstructionType where
  | auipc
  | jal
  | addi
  | bne
  | csrrw
  | csrrs
  | csrrwi
  | unimplemented
  deriving DecidableEq, Repr

/-- An instruction with its operands (30_encoding.md R63). An immediate is "a mathematical integer" (00_scope.md R11): the
offset or addend itself, not the bits that encode it (log entry 18). -/
inductive Instr where
  /-- `auipc rd, immU` (41_upper_and_jump.md R110). -/
  | auipc (rd : RegIdx) (imm : Int)
  /-- `jal rd, immJ` (41_upper_and_jump.md R111). -/
  | jal (rd : RegIdx) (imm : Int)
  /-- `addi rd, rs1, immI` (42_integer_immediate.md R120). -/
  | addi (rd rs1 : RegIdx) (imm : Int)
  /-- `bne rs1, rs2, immB` (43_branch.md R130). -/
  | bne (rs1 rs2 : RegIdx) (imm : Int)
  /-- `csrrw rd, csr, rs1` (44_csr.md R141). -/
  | csrrw (rd : RegIdx) (csr : CsrAddr) (rs1 : RegIdx)
  /-- `csrrs rd, csr, rs1` (44_csr.md R142). -/
  | csrrs (rd : RegIdx) (csr : CsrAddr) (rs1 : RegIdx)
  /-- `csrrwi rd, csr, uimm` (44_csr.md R143). -/
  | csrrwi (rd : RegIdx) (csr : CsrAddr) (uimm : Uimm)
  deriving DecidableEq, Repr

/-- The class an instruction belongs to. -/
def Instr.itype : Instr → InstructionType
  | .auipc _ _ => .auipc
  | .jal _ _ => .jal
  | .addi _ _ _ => .addi
  | .bne _ _ _ => .bne
  | .csrrw _ _ _ => .csrrw
  | .csrrs _ _ _ => .csrrs
  | .csrrwi _ _ _ => .csrrwi

/-- The CSR an instruction names, if it is one of the three CSR instructions (44_csr.md R140). -/
def Instr.csr? : Instr → Option CsrAddr
  | .auipc _ _ => none
  | .jal _ _ => none
  | .addi _ _ _ => none
  | .bne _ _ _ => none
  | .csrrw _ csr _ => some csr
  | .csrrs _ csr _ => some csr
  | .csrrwi _ csr _ => some csr

/-- The register an instruction names as its destination (10_state.md R23: every one but BNE writes `x[rd]`). -/
def Instr.rd? : Instr → Option RegIdx
  | .auipc rd _ => some rd
  | .jal rd _ => some rd
  | .addi rd _ _ => some rd
  | .bne _ _ _ => none
  | .csrrw rd _ _ => some rd
  | .csrrs rd _ _ => some rd
  | .csrrwi rd _ _ => some rd

end Sys2Proof
end

