-- ==== Sys2Proof/WellFormed.lean ====
section
/-! DEFINITION. Which instructions a word can encode: each immediate in the range and with the alignment its format admits
(30_encoding.md R64 to R67, R70). Register numbers, CSR addresses and CSRRWI's immediate carry their bounds in their
types. -/

namespace Sys2Proof

/-- U-immediate: "a multiple of 4096 in [-2^31, 2^31 - 4096]" (30_encoding.md R64). -/
abbrev WellFormedU (imm : Int) : Prop := -2 ^ 31 ≤ imm ∧ imm ≤ 2 ^ 31 - 4096 ∧ imm % 4096 = 0

/-- I-immediate: "an integer in [-2048, 2047]" (30_encoding.md R65). -/
abbrev WellFormedI (imm : Int) : Prop := -2048 ≤ imm ∧ imm ≤ 2047

/-- J-immediate: "even, in [-2^20, 2^20 - 2]" (30_encoding.md R66). -/
abbrev WellFormedJ (imm : Int) : Prop := -2 ^ 20 ≤ imm ∧ imm ≤ 2 ^ 20 - 2 ∧ imm % 2 = 0

/-- B-immediate: "even, in [-4096, 4094]" (30_encoding.md R67). -/
abbrev WellFormedB (imm : Int) : Prop := -4096 ≤ imm ∧ imm ≤ 4094 ∧ imm % 2 = 0

/-- The instructions some word encodes. -/
def wellFormed : Instr → Bool
  | .auipc _ imm => decide (WellFormedU imm)
  | .jal _ imm => decide (WellFormedJ imm)
  | .addi _ _ imm => decide (WellFormedI imm)
  | .bne _ _ imm => decide (WellFormedB imm)
  | .csrrw _ _ _ => true
  | .csrrs _ _ _ => true
  | .csrrwi _ _ _ => true

end Sys2Proof
end

