-- ==== Sys2Proof/Decode.lean ====
section
/-! DEFINITION. The decoder (fields and immediates), the classifier, the opcode table, and the encoder
(spec/30_encoding.md). Opcode and funct3 values and the U, J and B layouts are the spec's own decision D6
(log entry 14). -/

namespace Sys2Proof

/-! ## Fields (R61) -/

/-- `opcode = w[6:0]`. -/
def fieldOpcode (w : InstrWord) : BitVec 7 := w.extractLsb' 0 7

/-- `rd = w[11:7]`. -/
def fieldRd (w : InstrWord) : RegIdx := (w.extractLsb' 7 5).toFin

/-- `funct3 = w[14:12]`. -/
def fieldFunct3 (w : InstrWord) : BitVec 3 := w.extractLsb' 12 3

/-- `rs1 = w[19:15]`. -/
def fieldRs1 (w : InstrWord) : RegIdx := (w.extractLsb' 15 5).toFin

/-- `rs2 = w[24:20]`. -/
def fieldRs2 (w : InstrWord) : RegIdx := (w.extractLsb' 20 5).toFin

/-- `csr = w[31:20]`, unsigned. -/
def fieldCsr (w : InstrWord) : CsrAddr := (w.extractLsb' 20 12).toFin

/-! ## Immediates (R64 to R68) -/

/-- `immU = s({w[31:12], 12{0}})` (R64, 90_conflicts.md C2). -/
def immU (w : InstrWord) : Int := (w.extractLsb' 12 20 ++ 0#12 : BitVec 32).toInt

/-- `immI = s(w[31:20])` (R65, 90_conflicts.md C1). -/
def immI (w : InstrWord) : Int := (w.extractLsb' 20 12).toInt

/-- `immJ = s({w[31], w[19:12], w[20], w[30:21], 0})` (R66). -/
def immJ (w : InstrWord) : Int :=
  (w.extractLsb' 31 1 ++ w.extractLsb' 12 8 ++ w.extractLsb' 20 1 ++ w.extractLsb' 21 10 ++ 0#1 : BitVec 21).toInt

/-- `immB = s({w[31], w[7], w[30:25], w[11:8], 0})` (R67). -/
def immB (w : InstrWord) : Int :=
  (w.extractLsb' 31 1 ++ w.extractLsb' 7 1 ++ w.extractLsb' 25 6 ++ w.extractLsb' 8 4 ++ 0#1 : BitVec 13).toInt

/-- `uimm = u(w[19:15])` (R68). -/
def immUimm (w : InstrWord) : Uimm := (w.extractLsb' 15 5).toFin

/-- Everything the decoder reads from a word (40_engine.md R90): "every 32-bit pattern yields well-defined field values"
(R62). -/
structure Fields where
  opcode : BitVec 7
  rd : RegIdx
  funct3 : BitVec 3
  rs1 : RegIdx
  rs2 : RegIdx
  csr : CsrAddr
  immU : Int
  immI : Int
  immJ : Int
  immB : Int
  uimm : Uimm
  deriving DecidableEq, Repr

/-- The decoder of R62: total, a function of the word alone. -/
def decodeFields (w : InstrWord) : Fields :=
  { opcode := fieldOpcode w, rd := fieldRd w, funct3 := fieldFunct3 w, rs1 := fieldRs1 w, rs2 := fieldRs2 w,
    csr := fieldCsr w, immU := immU w, immI := immI w, immJ := immJ w, immB := immB w, uimm := immUimm w }

/-! ## Classification (R74 to R77) -/

/-- `classify(w)` of R75: AUIPC and JAL by opcode alone, the others by opcode and funct3 (R76). -/
def classify (w : InstrWord) : InstructionType :=
  match fieldOpcode w, fieldFunct3 w with
  | 0b0010111#7, _ => .auipc
  | 0b1101111#7, _ => .jal
  | 0b0010011#7, 0b000#3 => .addi
  | 0b1100011#7, 0b001#3 => .bne
  | 0b1110011#7, 0b001#3 => .csrrw
  | 0b1110011#7, 0b010#3 => .csrrs
  | 0b1110011#7, 0b101#3 => .csrrwi
  | _, _ => .unimplemented

/-- One row of the mask and match table of R77. -/
structure OpcodeRow where
  itype : InstructionType
  mask : InstrWord
  pattern : InstrWord
  deriving DecidableEq, Repr

/-- The mask and match table of R77 (spec/opcode_table.json). -/
def opcodeTable : List OpcodeRow :=
  [ ⟨.auipc, 0x0000007F#32, 0x00000017#32⟩,
    ⟨.jal, 0x0000007F#32, 0x0000006F#32⟩,
    ⟨.addi, 0x0000707F#32, 0x00000013#32⟩,
    ⟨.bne, 0x0000707F#32, 0x00001063#32⟩,
    ⟨.csrrw, 0x0000707F#32, 0x00001073#32⟩,
    ⟨.csrrs, 0x0000707F#32, 0x00002073#32⟩,
    ⟨.csrrwi, 0x0000707F#32, 0x00005073#32⟩ ]

/-- "A word `w` is instruction `M` when `(w & mask_M) == match_M`" (R77). -/
def OpcodeRow.accepts (r : OpcodeRow) (w : InstrWord) : Bool := w &&& r.mask == r.pattern

/-- Why no instruction was read, by name. -/
inductive Reject where
  /-- The word classifies as `Unimplemented` (R75, R78). -/
  | unimplemented (w : InstrWord)
  /-- Fewer than the four bytes of a word were given; a fetch that reads this short fails before decoding (20_memory.md
  R45). -/
  | truncated (available : Nat)
  deriving DecidableEq, Repr

/-- The instruction a word holds: classified by R75, its operands read in the instruction's format (R63). -/
def decode (w : InstrWord) : Except Reject Instr :=
  match classify w with
  | .auipc => .ok (.auipc (fieldRd w) (immU w))
  | .jal => .ok (.jal (fieldRd w) (immJ w))
  | .addi => .ok (.addi (fieldRd w) (fieldRs1 w) (immI w))
  | .bne => .ok (.bne (fieldRs1 w) (fieldRs2 w) (immB w))
  | .csrrw => .ok (.csrrw (fieldRd w) (fieldCsr w) (fieldRs1 w))
  | .csrrs => .ok (.csrrs (fieldRd w) (fieldCsr w) (fieldRs1 w))
  | .csrrwi => .ok (.csrrwi (fieldRd w) (fieldCsr w) (immUimm w))
  | .unimplemented => .error (.unimplemented w)

/-! ## Bytes (20_memory.md R45, R46) -/

/-- "`w = {bytes[3], bytes[2], bytes[1], bytes[0]}`" (20_memory.md R45). -/
def wordOfBytes (b0 b1 b2 b3 : Byte) : InstrWord := b3 ++ b2 ++ b1 ++ b0

/-- The bytes that store a word: "the byte at the lowest address is bits 7:0 of the word" (20_memory.md R46). -/
def bytesOfWord (w : InstrWord) : List Byte :=
  [w.extractLsb' 0 8, w.extractLsb' 8 8, w.extractLsb' 16 8, w.extractLsb' 24 8]

/-- The first instruction of a list of bytes, with the bytes after it. -/
def decodeBytes : List Byte → Except Reject (Instr × List Byte)
  | b0 :: b1 :: b2 :: b3 :: rest =>
    match decode (wordOfBytes b0 b1 b2 b3) with
    | .ok i => .ok (i, rest)
    | .error r => .error r
  | bs => .error (.truncated bs.length)

/-- The instruction the decoder reads from a row of spec/opcode_table.json whose bits are `w` (a host entry point). -/
def decodeTableWord (nbits w : Nat) : Option Instr :=
  match decodeBytes (bytesOfWord (BitVec.ofNat 32 (w % 2 ^ nbits))) with
  | .ok (i, _) => some i
  | .error _ => none

/-! ## The encoder: immediate placement (R70) over the formats of R63 -/

/-- A 5-bit register field. -/
def regBits (r : RegIdx) : BitVec 5 := BitVec.ofNat 5 r.val

/-- "U: w[31:12] = v[31:12]". -/
def placeU (v : Int) : BitVec 20 := (BitVec.ofInt 32 v).extractLsb' 12 20

/-- "J: w[31] = v[20]; w[30:21] = v[10:1]; w[20] = v[11]; w[19:12] = v[19:12]". -/
def placeJ (v : Int) : BitVec 20 :=
  let b := BitVec.ofInt 21 v
  b.extractLsb' 20 1 ++ b.extractLsb' 1 10 ++ b.extractLsb' 11 1 ++ b.extractLsb' 12 8

/-- "B: w[31] = v[12]; w[30:25] = v[10:5]": the seven high bits. -/
def placeBHigh (v : Int) : BitVec 7 :=
  let b := BitVec.ofInt 13 v
  b.extractLsb' 12 1 ++ b.extractLsb' 5 6

/-- "B: w[11:8] = v[4:1]; w[7] = v[11]": the five low bits. -/
def placeBLow (v : Int) : BitVec 5 :=
  let b := BitVec.ofInt 13 v
  b.extractLsb' 1 4 ++ b.extractLsb' 11 1

/-- U-type and J-type words: 20 immediate bits, rd, opcode (R63). -/
def encodeUpper (imm : BitVec 20) (rd : RegIdx) (opcode : BitVec 7) : InstrWord :=
  imm ++ regBits rd ++ opcode

/-- I-type and CSR words: 12 bits, a 5-bit field, funct3, rd, opcode (R63). -/
def encodeI (high : BitVec 12) (rs1 : BitVec 5) (funct3 : BitVec 3) (rd : RegIdx) (opcode : BitVec 7) : InstrWord :=
  high ++ rs1 ++ funct3 ++ regBits rd ++ opcode

/-- B-type words (R63). -/
def encodeB (imm : Int) (rs1 rs2 : RegIdx) (funct3 : BitVec 3) (opcode : BitVec 7) : InstrWord :=
  placeBHigh imm ++ regBits rs2 ++ regBits rs1 ++ funct3 ++ placeBLow imm ++ opcode

/-- The word of a well-formed instruction, from the tables of R63, R70 and R77. -/
def encode : Instr → InstrWord
  | .auipc rd imm => encodeUpper (placeU imm) rd 0b0010111#7
  | .jal rd imm => encodeUpper (placeJ imm) rd 0b1101111#7
  | .addi rd rs1 imm => encodeI (BitVec.ofInt 12 imm) (regBits rs1) 0b000#3 rd 0b0010011#7
  | .bne rs1 rs2 imm => encodeB imm rs1 rs2 0b001#3 0b1100011#7
  | .csrrw rd csr rs1 => encodeI (BitVec.ofNat 12 csr.val) (regBits rs1) 0b001#3 rd 0b1110011#7
  | .csrrs rd csr rs1 => encodeI (BitVec.ofNat 12 csr.val) (regBits rs1) 0b010#3 rd 0b1110011#7
  | .csrrwi rd csr uimm => encodeI (BitVec.ofNat 12 csr.val) (BitVec.ofNat 5 uimm.val) 0b101#3 rd 0b1110011#7

end Sys2Proof
end

