-- ==== Sys2Proof/Config.lean ====
section
/-! DEFINITION. The parameters of 00_scope.md R7 that the spec leaves OPEN, as plain data. No free value stands here: no
instruction of this hardware has an undefined result (93_implementation_defined.md section 1). -/

namespace Sys2Proof

/-- The open parameters of one machine (00_scope.md R7). They are chosen when a machine is created and never change; a
State carries its own (log entry 6), so a statement about every State is about every choice of them. -/
structure Params where
  /-- `XLEN`, 32 or 64 (D2; log entry 1). -/
  xlen : Xlen
  /-- `PAGE_SIZE` in bytes, a power of two (D8; log entry 2). -/
  pageSize : Nat
  /-- The CSR addresses at which `CSR_PRESENT` is false; R7's default is none (D13; log entry 4). -/
  csrAbsent : List CsrAddr
  /-- `CSR_RESET`: the CSRs whose value after create and reset is not 0, in rising order of address; R7's default is none
  (D14; log entry 5). -/
  csrReset : List (Nat × BitVec xlen.bits)
  deriving DecidableEq, Repr

/-- The parameters at R7's defaults (every CSR present, every CSR reset to 0) for one XLEN and the test vectors' page size
of 4096 bytes (95_test_vectors.md; DESIGN CHOICE, log entry 2: the spec leaves PAGE_SIZE open). -/
def Params.atDefaults (xlen : Xlen) : Params :=
  { xlen := xlen, pageSize := 4096, csrAbsent := [], csrReset := [] }

end Sys2Proof
end

