-- ==== Sys2Proof/Machine/State.lean ====
section
/-! DEFINITION. The state of the machine (spec/10_state.md R20), the failures of a step (spec/60_exceptions.md R160), the
refusals, and the state after reset (R33). -/

namespace Sys2Proof.Machine

/-- `status : Live | Defunct` (10_state.md R20; a machine whose reset failed, and a destroyed one, are Defunct,
70_reset_and_hazards.md R188). -/
inductive Status where
  | live
  | defunct
  deriving DecidableEq, Repr

/-- `mem`: "an array of CAPACITY bytes, each 8 bits" (10_state.md R30). -/
structure Memory where
  /-- `CAPACITY` in bytes (20_memory.md R40). -/
  capacity : Nat
  /-- The bytes that are not 0, by rising address; an unlisted byte reads as 0 (R40: "zero-initialized"; log entry 21). -/
  cells : List Host.Cell
  deriving DecidableEq, Repr

/-- `Hart` of 10_state.md R20, at register width `n`. -/
structure Hart (n : Nat) where
  /-- `id`: "natural number, always 0" (R31). -/
  id : Nat
  /-- `pc` (R24). -/
  pc : BitVec n
  /-- The storage of the general registers (R21); read and written by `Hart.readX` and `Hart.writeX` alone, which wire
  `x[0]` to 0 (R22; log entry 16). -/
  x : Vector (BitVec n) 32
  /-- The CSRs that do not hold 0, by rising address (R27; log entry 21). -/
  csr : List (Nat × BitVec n)
  deriving DecidableEq, Repr

/-- `Machine` of 10_state.md R20, with the open parameters it was created with (log entry 6). -/
structure State where
  /-- The open parameters of this machine: the model's own field, fixed from create on. -/
  params : Params
  status : Status
  mem : Memory
  /-- "the only hart" (R31). -/
  hart0 : Hart params.xlen.bits
  deriving DecidableEq, Repr

/-- How a step can fail (60_exceptions.md R160 to R163). The state is as before the step (40_engine.md R97). Both are
failures the spec itself describes, so ending the step here is exact: safe. -/
inductive Fault where
  /-- `IllegalInstruction(pc, w)`: raised by `step` when the word classifies as `Unimplemented`, and by the CSR
  instructions when the CSR is not present (R161). `pc` is `u(pc)` (log entry 8). Safe. -/
  | illegalInstruction (pc : Nat) (w : InstrWord)
  /-- `FetchOutOfBounds(pc)`: raised by `step` when the 4-byte fetch exceeds CAPACITY (R162). `pc` is `u(pc)`. Safe. -/
  | fetchOutOfBounds (pc : Nat)
  deriving DecidableEq, Repr

/-- What the model has no answer for. -/
inductive Refusal where
  /-- An instruction without a meaning yet; no arm of `exec` answers it. Safe. -/
  | notModelled (mnemonic : String)
  /-- An operation on a Defunct machine: "a model refuses each one" (70_reset_and_hazards.md R188). Raised by `step` and
  by the host's operations. Safe. -/
  | defunctMachine
  /-- A run with `halt_on_illegal = false`: "a model has no run for it" (40_engine.md R102). Raised by `run`. Safe. -/
  | continueOnIllegal
  deriving DecidableEq, Repr

/-- `hart0 := { id = 0, pc = 0, x[0..31] = 0, csr[a] = CSR_RESET(a) for every a }` (70_reset_and_hazards.md R180, R184). -/
def Hart.reset (p : Params) : Hart p.xlen.bits :=
  { id := 0, pc := 0, x := Vector.replicate 32 0, csr := p.csrReset }

/-- The machine right after reset with an empty descriptor list (10_state.md R33): the state that create leaves for the
parameters of the test vectors (CAPACITY 4096). XLEN, PAGE_SIZE and CAPACITY are open in the spec: DESIGN CHOICE, log
entries 1, 2 and 3. -/
def State.reset : State :=
  { params := Params.atDefaults .x64
    status := .live
    mem := { capacity := 4096, cells := [] }
    hart0 := Hart.reset (Params.atDefaults .x64) }

end Sys2Proof.Machine
end

