-- ==== Sys2Proof/Machine/Ops.lean ====
section
/-! DEFINITION. The operations every meaning is made of: sparse storage, memory and its two ports (spec/20_memory.md),
registers and CSRs (spec/10_state.md), and the two ways a step ends, COMMIT and FAULT (spec/40_engine.md R93, R96). -/

namespace Sys2Proof.Machine

/-! ## Sparse storage: the one canonical form of memory and of the CSRs (log entry 21) -/

/-- What is stored at `a`; an unlisted place holds `d`. -/
def sparseGet {β : Type} (d : β) : List (Nat × β) → Nat → β
  | [], _ => d
  | c :: l, a => if c.1 = a then c.2 else sparseGet d l a

/-- Store `v` at `a`, keeping addresses rising and listing no `d`. -/
def sparseSet {β : Type} [DecidableEq β] (d : β) : List (Nat × β) → Nat → β → List (Nat × β)
  | [], a, v => if v = d then [] else [(a, v)]
  | c :: l, a, v =>
    if a < c.1 then (if v = d then c :: l else (a, v) :: c :: l)
    else if a = c.1 then (if v = d then l else (a, v) :: l)
    else c :: sparseSet d l a v

/-- The canonical form: addresses strictly rising, no entry equal to what an unlisted place holds. -/
abbrev SparseWF {β : Type} (d : β) (l : List (Nat × β)) : Prop :=
  l.Pairwise (fun c c' => c.1 < c'.1) ∧ ∀ c ∈ l, c.2 ≠ d

/-! ## Memory (20_memory.md) -/

/-- The canonical form of memory: sparse, and nothing listed at or above CAPACITY (R41). -/
abbrev Memory.wf (m : Memory) : Prop := SparseWF (0 : Byte) m.cells ∧ ∀ c ∈ m.cells, c.1 < m.capacity

/-- `mem[a]`. -/
def Memory.readByte (m : Memory) (a : Nat) : Byte := sparseGet 0 m.cells a

/-- `mem[a] := b`. -/
def Memory.writeByte (m : Memory) (a : Nat) (b : Byte) : Memory := { m with cells := sparseSet 0 m.cells a b }

/-- An access of `n` bytes at `a` is in bounds: "`a + n <= CAPACITY`, computed in unbounded integers" (R43). -/
abbrev Memory.InBounds (m : Memory) (a n : Nat) : Prop := a + n ≤ m.capacity

/-- `MemRead(a, n)` (R44); none is the out-of-bounds outcome. The address of each byte is `a + i` in unbounded integers
(R43, R44), also where a fetch from a pc just below 2^32 at XLEN 32 then reads bytes at or above 2^32, which R41's derived
sentence calls unreachable by fetch: DESIGN CHOICE, log entry 23. -/
def Memory.read (m : Memory) (a n : Nat) : Option (List Byte) :=
  if m.InBounds a n then some ((List.range n).map fun i => m.readByte (a + i)) else none

/-- `mem[a+i] := bytes[i]` for every `i`, with no bounds check. -/
def Memory.storeBytes (m : Memory) (a : Nat) : List Byte → Memory
  | [] => m
  | b :: bs => (m.writeByte a b).storeBytes (a + 1) bs

/-- `MemWrite(a, n, bytes)` (R47); none is the out-of-bounds outcome, and then nothing is written. -/
def Memory.write (m : Memory) (a : Nat) (bytes : List Byte) : Option Memory :=
  if m.InBounds a bytes.length then some (m.storeBytes a bytes) else none

/-- "rounded up to page granularity": `PAGE_SIZE * ceil(req / PAGE_SIZE)` (R40). -/
def roundUpToPage (pageSize req : Nat) : Nat := pageSize * ((req + pageSize - 1) / pageSize)

/-- Memory with at least `n` bytes in whole pages; larger memory stays as it is. No rule of the spec grows a memory: this
serves `State.withFetchWord` alone (log entry 7). -/
def Memory.withRoom (m : Memory) (pageSize n : Nat) : Memory :=
  { m with capacity := if n ≤ m.capacity then m.capacity else roundUpToPage pageSize n }

/-- The fetch port (R45): the word at the pc, little-endian, with no alignment required; none when out of bounds. -/
def State.fetch (s : State) : Option InstrWord :=
  match s.mem.read s.hart0.pc.toNat 4 with
  | some [b0, b1, b2, b3] => some (wordOfBytes b0 b1 b2 b3)
  | _ => none

/-! ## Registers and CSRs (10_state.md) -/

/-- `x[i] = (i == 0) ? 0 : X[i]` (R22). -/
def Hart.readX {n : Nat} (h : Hart n) (r : RegIdx) : BitVec n := if r = 0 then 0 else h.x[r.val]

/-- `x[i] <- v : if i != 0 then X[i] := v` (R22). -/
def Hart.writeX {n : Nat} (h : Hart n) (r : RegIdx) (v : BitVec n) : Hart n :=
  if r = 0 then h else { h with x := h.x.set r.val v }

/-- `csr[a]` (R28). -/
def Hart.readCsr {n : Nat} (h : Hart n) (a : CsrAddr) : BitVec n := sparseGet 0 h.csr a.val

/-- `csr[a] <- v` (R28). -/
def Hart.writeCsr {n : Nat} (h : Hart n) (a : CsrAddr) (v : BitVec n) : Hart n :=
  { h with csr := sparseSet 0 h.csr a.val v }

/-- `pc <- target` (00_scope.md R14). -/
def Hart.setPc {n : Nat} (h : Hart n) (target : BitVec n) : Hart n := { h with pc := target }

/-- `CSR_PRESENT(a)` (00_scope.md R7). -/
def csrPresent (p : Params) (a : CsrAddr) : Bool := !p.csrAbsent.contains a

/-! ## How a step ends (40_engine.md R91, R93, R96) -/

/-- What EXECUTE hands to COMMIT: `(rd_write, csr_write, redirect)` (R93). -/
structure Effects (n : Nat) where
  rdWrite : Option (RegIdx × BitVec n) := none
  csrWrite : Option (CsrAddr × BitVec n) := none
  redirect : Option (BitVec n) := none
  deriving DecidableEq, Repr

/-- `x[r] <- v` when an instruction writes a register. -/
def Hart.commitRd {n : Nat} (h : Hart n) : Option (RegIdx × BitVec n) → Hart n
  | some (r, v) => h.writeX r v
  | none => h

/-- `csr[a] <- v` when an instruction writes a CSR. -/
def Hart.commitCsr {n : Nat} (h : Hart n) : Option (CsrAddr × BitVec n) → Hart n
  | some (a, v) => h.writeCsr a v
  | none => h

/-- The pc after a step that completes: "the redirect if present, else pc + 4, modulo 2^XLEN" (R98). -/
def nextPc {n : Nat} (pc : BitVec n) : Option (BitVec n) → BitVec n
  | some target => target
  | none => pc + 4

/-- COMMIT (R93) on the hart. -/
def Hart.commit {n : Nat} (h : Hart n) (e : Effects n) : Hart n :=
  ((h.commitRd e.rdWrite).commitCsr e.csrWrite).setPc (nextPc h.pc e.redirect)

/-- COMMIT (R93) on the machine. -/
def State.commit (s : State) (e : Effects s.params.xlen.bits) : State := { s with hart0 := s.hart0.commit e }

/-- A step that completes. -/
def complete (s : State) (e : Effects s.params.xlen.bits) : Host.Outcome State Fault Refusal := .next (s.commit e)

/-- `raise F(info)` (R96): the step ends at once. There is no trap entry (60_exceptions.md R167): nothing is saved, the pc
is not redirected, and the machine stays as it was, so the outcome carries the failure alone. -/
def raise (f : Fault) : Host.Outcome State Fault Refusal := .fault f

end Sys2Proof.Machine
end

