-- ==== Sys2Proof/Machine/Flags.lean ====
section
/-! DEFINITION. Conditions. The hardware has none stored: "There are no status flags and no condition codes (BNE compares
two registers directly)" (spec/10_state.md R29). The one condition an instruction computes stands here. -/

namespace Sys2Proof.Machine

/-- BNE's condition `a != b`: "all XLEN bits compared" (43_branch.md R130). -/
def registersDiffer {n : Nat} (h : Hart n) (rs1 rs2 : RegIdx) : Bool := h.readX rs1 != h.readX rs2

end Sys2Proof.Machine
end

