-- ==== Sys2Proof/Machine/Operands.lean ====
section
/-! DEFINITION. The operand forms: immediates as register-width values (spec/30_encoding.md R69) and pc-relative targets.
A register operand is `Hart.readX`, a CSR operand `Hart.readCsr`; every operand is read from the state at the start of the
step (spec/40_engine.md R99). -/

namespace Sys2Proof.Machine

/-- `bv_XLEN(i)`: "the XLEN-bit vector whose unsigned value is `i mod 2^XLEN`" (00_scope.md R11, 30_encoding.md R69). -/
def immValue (n : Nat) (i : Int) : BitVec n := BitVec.ofInt n i

/-- CSRRWI's source, `zext_XLEN(w[19:15])` (44_csr.md R143, 30_encoding.md R68). -/
def uimmValue (n : Nat) (u : Uimm) : BitVec n := BitVec.ofNat n u.val

/-- `pc + bv_XLEN(i)`, modulo 2^XLEN: the sum of AUIPC, JAL and a taken BNE, with "the instruction's own address as the
base" (41_upper_and_jump.md R112). -/
def pcRelative {n : Nat} (h : Hart n) (i : Int) : BitVec n := h.pc + immValue n i

/-- `pc + 4`: JAL's link (41_upper_and_jump.md R111). -/
def linkValue {n : Nat} (h : Hart n) : BitVec n := h.pc + 4

end Sys2Proof.Machine
end

