-- ==== Sys2Proof/Machine/Branch.lean ====
section
/-! DEFINITION. BNE (spec/43_branch.md). -/

namespace Sys2Proof.Machine

/-- BNE (R130): `if x[rs1] != x[rs2]: redirect = pc + bv_XLEN(immB)`, else no redirect. -/
def execBne (rs1 rs2 : RegIdx) (imm : Int) (s : State) : Host.Outcome State Fault Refusal :=
  complete s { redirect := if registersDiffer s.hart0 rs1 rs2 then some (pcRelative s.hart0 imm) else none }

end Sys2Proof.Machine
end

