-- ==== Sys2Proof/Machine/Csr.lean ====
section
/-! DEFINITION. CSRRW, CSRRS and CSRRWI (spec/44_csr.md). -/

namespace Sys2Proof.Machine

/-- The read-modify-write the three share: the presence check of R140, then `x[rd] <- old` and `csr[a] <- new`, no read or
write ever skipped (R144). `i` is the instruction itself: all 32 bits of its word are operands or fixed bits, so its
encoding is the offending word the failure carries (R161; log entry 17). -/
def csrAccess (i : Instr) (rd : RegIdx) (a : CsrAddr) (s : State) (new : BitVec s.params.xlen.bits) :
    Host.Outcome State Fault Refusal :=
  if csrPresent s.params a then
    complete s { rdWrite := some (rd, s.hart0.readCsr a), csrWrite := some (a, new) }
  else
    raise (.illegalInstruction s.hart0.pc.toNat (encode i))

/-- CSRRW (R141): `csr[a] <- x[rs1]`. -/
def execCsrrw (rd : RegIdx) (csr : CsrAddr) (rs1 : RegIdx) (s : State) : Host.Outcome State Fault Refusal :=
  csrAccess (.csrrw rd csr rs1) rd csr s (s.hart0.readX rs1)

/-- CSRRS (R142): `csr[a] <- old | x[rs1]`. -/
def execCsrrs (rd : RegIdx) (csr : CsrAddr) (rs1 : RegIdx) (s : State) : Host.Outcome State Fault Refusal :=
  csrAccess (.csrrs rd csr rs1) rd csr s (s.hart0.readCsr csr ||| s.hart0.readX rs1)

/-- CSRRWI (R143): `csr[a] <- zext_XLEN(w[19:15])`. -/
def execCsrrwi (rd : RegIdx) (csr : CsrAddr) (uimm : Uimm) (s : State) : Host.Outcome State Fault Refusal :=
  csrAccess (.csrrwi rd csr uimm) rd csr s (uimmValue _ uimm)

end Sys2Proof.Machine
end

