-- ==== Sys2Proof/Machine/IntegerImmediate.lean ====
section
/-! DEFINITION. ADDI (spec/42_integer_immediate.md). -/

namespace Sys2Proof.Machine

/-- ADDI (R120): `x[rd] <- x[rs1] + bv_XLEN(immI)`, "register-width wraparound, no overflow trap". -/
def execAddi (rd rs1 : RegIdx) (imm : Int) (s : State) : Host.Outcome State Fault Refusal :=
  complete s { rdWrite := some (rd, s.hart0.readX rs1 + immValue _ imm) }

end Sys2Proof.Machine
end

