-- ==== Sys2Proof/Machine/UpperJump.lean ====
section
/-! DEFINITION. AUIPC and JAL (spec/41_upper_and_jump.md). -/

namespace Sys2Proof.Machine

/-- AUIPC (R110): `x[rd] <- pc + bv_XLEN(immU)`. -/
def execAuipc (rd : RegIdx) (imm : Int) (s : State) : Host.Outcome State Fault Refusal :=
  complete s { rdWrite := some (rd, pcRelative s.hart0 imm) }

/-- JAL (R111): `x[rd] <- pc + 4`, `redirect = pc + bv_XLEN(immJ)`. -/
def execJal (rd : RegIdx) (imm : Int) (s : State) : Host.Outcome State Fault Refusal :=
  complete s { rdWrite := some (rd, linkValue s.hart0), redirect := some (pcRelative s.hart0 imm) }

end Sys2Proof.Machine
end

