-- ==== Sys2Proof/Machine/Step.lean ====
section
/-! DEFINITION. One step of hart 0 (spec/40_engine.md R91, R93): FETCH, DECODE, EXECUTE, COMMIT, or FAULT. -/

namespace Sys2Proof.Machine

/-- `step(state)` of R93. A Defunct machine has no step (70_reset_and_hazards.md R188; log entry 10). -/
def step (s : State) : Host.Outcome State Fault Refusal :=
  match s.status with
  | .defunct => .refused .defunctMachine
  | .live =>
    match s.fetch with
    | none => raise (.fetchOutOfBounds s.hart0.pc.toNat)
    | some w =>
      match decode w with
      | .error _ => raise (.illegalInstruction s.hart0.pc.toNat w)
      | .ok i => exec i s

/-- The machine `s` with the instruction whose bits are `w` stored where `step` fetches next (a host entry point): live, and
with at least enough whole pages of memory for the four bytes at the pc (log entry 7). -/
def State.withFetchWord (s : State) (nbits w : Nat) : State :=
  { s with
    status := .live
    mem := (s.mem.withRoom s.params.pageSize (s.hart0.pc.toNat + 4)).storeBytes s.hart0.pc.toNat
      (bytesOfWord (BitVec.ofNat 32 (w % 2 ^ nbits))) }

end Sys2Proof.Machine
end

