-- ==== Sys2Proof/Machine/Engine.lean ====
section
/-! DEFINITION. The engine's options and its run loop (spec/40_engine.md R100 to R105). -/

namespace Sys2Proof.Machine

/-- The options record (R102). -/
structure Options where
  /-- trace-on-execute: no effect on state (R104); its output is not modelled (log entry 20). -/
  trace : Bool
  /-- maximum-step-count; none is no limit. -/
  maxSteps : Option Nat
  /-- halt-on-illegal-instruction. -/
  haltOnIllegal : Bool
  deriving DecidableEq, Repr

/-- R102's defaults. -/
def Options.defaults : Options := { trace := false, maxSteps := none, haltOnIllegal := true }

/-- One option as the host asks for it when it builds the record. -/
inductive OptionRequest where
  | trace (on : Bool)
  | maxSteps (limit : Option Nat)
  | haltOnIllegal (halt : Bool)
  /-- Any other name. -/
  | unrecognised (name : String)
  deriving DecidableEq, Repr

/-- The recognised fields of the options record (R102). -/
inductive OptionField where
  | trace
  | maxSteps
  | haltOnIllegal
  deriving DecidableEq, Repr

/-- The recognised field a request is for, if it is for one. -/
def OptionRequest.field? : OptionRequest → Option OptionField
  | .trace _ => some .trace
  | .maxSteps _ => some .maxSteps
  | .haltOnIllegal _ => some .haltOnIllegal
  | .unrecognised _ => none

/-- `OptionError`: the unrecognised option (60_exceptions.md R160); of several, the first in the list of requests (DESIGN
CHOICE, log entry 24). -/
structure OptionError where
  name : String
  deriving DecidableEq, Repr

/-- Build an options record over `o`: "an unrecognized option is a construction-time error, never silently ignored" (R102).
A later request for the same field wins (DESIGN CHOICE, log entry 13). The error names the first unrecognised option in list
order: R160 says only "the unrecognised option" (DESIGN CHOICE, log entry 24). -/
def buildOptions (o : Options) : List OptionRequest → Except OptionError Options
  | [] => .ok o
  | .trace on :: rs => buildOptions { o with trace := on } rs
  | .maxSteps limit :: rs => buildOptions { o with maxSteps := limit } rs
  | .haltOnIllegal halt :: rs => buildOptions { o with haltOnIllegal := halt } rs
  | .unrecognised name :: _ => .error { name := name }

/-- How a run ends (R101), with the state it leaves. -/
inductive RunOutcome where
  /-- `Failure(F(info))`: the state is as before the failing step. -/
  | failure (f : Fault) (s : State)
  /-- `StepLimitReached(n)`. -/
  | stepLimitReached (n : Nat) (s : State)
  /-- The model refuses the run (R102, R188). -/
  | refused (r : Refusal)
  /-- Not an end of a run: `n` steps have completed, the run goes on, and the model looks no further (log entry 12). -/
  | unfinished (n : Nat) (s : State)
  deriving DecidableEq, Repr

/-- The loop of R100 from the point where `n` steps have completed, watched for at most `watch` more steps. -/
def runLoop (maxSteps : Option Nat) : Nat → Nat → State → RunOutcome
  | watch, n, s =>
    if maxSteps = some n then .stepLimitReached n s
    else
      match watch with
      | 0 => .unfinished n s
      | watch + 1 =>
        match step s with
        | .fault f => .failure f s
        | .refused r => .refused r
        | .next s' => runLoop maxSteps watch (n + 1) s'

/-- `run(options)` (R100), watched for at most `watch` steps. Refused on a Defunct machine (R188) and for
`halt_on_illegal = false` (R102). -/
def run (o : Options) (watch : Nat) (s : State) : RunOutcome :=
  match s.status with
  | .defunct => .refused .defunctMachine
  | .live => if o.haltOnIllegal then runLoop o.maxSteps watch 0 s else .refused .continueOnIllegal

end Sys2Proof.Machine
end

