-- ==== Sys2Proof/Machine/Lifecycle.lean ====
section
/-! DEFINITION. The host's operations that make, reset and destroy a machine (spec/70_reset_and_hazards.md R180 to R189),
beside `step` (log entry 22). -/

namespace Sys2Proof.Machine

/-- A MemoryDescriptor: "(absolute byte offset, raw byte sequence)" (20_memory.md R48). -/
structure Descriptor where
  offset : Nat
  bytes : List Byte
  deriving DecidableEq, Repr

/-- The errors that end a create or a reset (60_exceptions.md R160, R165). -/
inductive ConstructionError where
  /-- create with a hart count of 0 (70_reset_and_hazards.md R181). -/
  | hartCountZero
  /-- create with a hart count of 2 or more (R181). -/
  | hartCountUnsupported (count : Nat)
  /-- create with capacity 0, or with one whose rounding the host cannot address (R165). -/
  | capacityError (requested : Nat)
  /-- The host could not allocate the storage (R165). -/
  | outOfMemory
  /-- A descriptor's bytes do not fit in CAPACITY (R165). -/
  | descriptorOutOfBounds (offset length : Nat)
  deriving DecidableEq, Repr

/-- What the spec leaves to the host at one create or reset (R165, D11; log entry 11): free, so a statement that holds for
every `Allocation` holds whatever the host does. -/
structure Allocation where
  /-- "whether it happens is not decided by any rule": does the allocation succeed? -/
  succeeds : Bool
  /-- The largest capacity in bytes the host can address. -/
  addressable : Nat
  deriving DecidableEq, Repr

/-- `apply(list)` of 20_memory.md R48: each descriptor by one MemWrite, in list order, stopping at the first out of bounds.
The memory answered holds the descriptors applied before it. -/
def applyDescriptors (m : Memory) : List Descriptor → Memory × Option ConstructionError
  | [] => (m, none)
  | d :: ds =>
    match m.write d.offset d.bytes with
    | some m' => applyDescriptors m' ds
    | none => (m, some (.descriptorOutOfBounds d.offset d.bytes.length))

/-- Storage of `capacity` bytes, all 0, with the content list applied; or the error (R180, R184). -/
def freshMemory (alloc : Allocation) (capacity : Nat) (content : List Descriptor) : Except ConstructionError Memory :=
  if alloc.succeeds then
    match applyDescriptors { capacity := capacity, cells := [] } content with
    | (m, none) => .ok m
    | (_, some e) => .error e
  else .error .outOfMemory

/-- `create(capacity_req, initial_content, hart_count)` (R180), at the open parameters `p`: "the first check that fails ends
create with its error". -/
def create (p : Params) (alloc : Allocation) (capacityReq : Nat) (content : List Descriptor) (hartCount : Nat) :
    Except ConstructionError State :=
  if hartCount = 0 then .error .hartCountZero
  else if hartCount ≠ 1 then .error (.hartCountUnsupported hartCount)
  else if capacityReq = 0 ∨ alloc.addressable < roundUpToPage p.pageSize capacityReq then .error (.capacityError capacityReq)
  else
    match freshMemory alloc (roundUpToPage p.pageSize capacityReq) content with
    | .error e => .error e
    | .ok m => .ok { params := p, status := .live, mem := m, hart0 := Hart.reset p }

/-- A machine whose resources are released: Defunct, with no byte and no hart content left (R187, R188; log entry 9). -/
def State.released (s : State) : State :=
  { s with status := .defunct, mem := { s.mem with cells := [] }, hart0 := Hart.reset s.params }

/-- What the host gets back from reset and destroy (R189). -/
inductive HostResult where
  | ok (s : State)
  /-- The error, and the machine it leaves (Defunct, R186). -/
  | failed (e : ConstructionError) (s : State)
  | refused (r : Refusal)
  deriving DecidableEq, Repr

/-- `reset(initial_content)` (R184): fresh zeroed storage of the same CAPACITY, the list applied, the hart reset; a reset
that fails makes the machine Defunct (R186); a Defunct machine has no reset (R188). -/
def hostReset (alloc : Allocation) (content : List Descriptor) (s : State) : HostResult :=
  match s.status with
  | .defunct => .refused .defunctMachine
  | .live =>
    match freshMemory alloc s.mem.capacity content with
    | .error e => .failed e s.released
    | .ok m => .ok { s with mem := m, hart0 := Hart.reset s.params }

/-- `destroy()` (R187); a Defunct machine has no destroy (R188). -/
def hostDestroy (s : State) : HostResult :=
  match s.status with
  | .defunct => .refused .defunctMachine
  | .live => .ok s.released

end Sys2Proof.Machine
end

