-- ==== Sys2Proof/Safety.lean ====
section
/-! DEFINITION. What a claim may call a legal machine and a safe run. -/

namespace Sys2Proof.Machine

/-- Every place a CSR storage lists is a CSR that is present: an absent CSR "has no storage" (10_state.md R27). -/
abbrev CsrStored {n : Nat} (p : Params) (csr : List (Nat × BitVec n)) : Prop :=
  ∀ c ∈ csr, ∃ h : c.1 < 4096, csrPresent p ⟨c.1, h⟩ = true

/-- The parameters are as 00_scope.md R7 admits them: PAGE_SIZE a power of two, CSR_RESET a canonical list of present
CSRs. -/
abbrev paramsLegal (p : Params) : Prop :=
  2 ^ p.pageSize.log2 = p.pageSize ∧ SparseWF 0 p.csrReset ∧ CsrStored p p.csrReset

/-- A legal machine (10_state.md R20, R22, R27, R30, R31; 20_memory.md R40). -/
structure State.Legal (s : State) : Prop where
  /-- The parameters are admitted. -/
  params : paramsLegal s.params
  /-- Memory is in its canonical form and lists nothing at or above CAPACITY. -/
  mem : s.mem.wf
  /-- "Memory capacity is always a multiple of the page size" (20_memory.md R40). -/
  capacity : s.mem.capacity % s.params.pageSize = 0
  /-- "natural number, always 0" (10_state.md R31). -/
  id : s.hart0.id = 0
  /-- "x[0] is architecturally wired to the constant 0" (10_state.md R22), in the storage too. -/
  x0 : s.hart0.x[0] = 0
  /-- The CSRs are in their canonical form. -/
  csr : SparseWF 0 s.hart0.csr
  /-- Only CSRs that are present have storage (10_state.md R27). -/
  csrStored : CsrStored s.params s.hart0.csr

/-- The byte the last descriptor that covers `a` writes there, if one does (10_state.md R33: "the last descriptor byte
written at `a`, else 0"). -/
def lastDescriptorByte (content : List Descriptor) (a : Nat) : Option Byte :=
  content.foldl (fun found d => if d.offset ≤ a ∧ a < d.offset + d.bytes.length then d.bytes[a - d.offset]? else found) none

/-- A descriptor fits in `capacity` bytes (20_memory.md R43, R47). -/
abbrev Descriptor.Fits (capacity : Nat) (d : Descriptor) : Prop := d.offset + d.bytes.length ≤ capacity

/-- The next step completes. -/
def State.Completes (s : State) : Prop := ∃ t, step s = .next t

/-- `k` steps complete from `s`, ending in `t`: a run of length `k` with no failure (40_engine.md R100). -/
inductive Steps : Nat → State → State → Prop where
  | zero (s : State) : Steps 0 s s
  | succ {k : Nat} {s t u : State} : Steps k s t → step t = .next u → Steps (k + 1) s u

/-- A run is safe for `k` steps when each of them completes. -/
def State.SafeFor (k : Nat) (s : State) : Prop := ∃ t, Steps k s t

end Sys2Proof.Machine
end

