-- ==== Sys2Proof/Certificates/Slice0/Obligations.lean ====
section
/-! DEFINITION. The statements for the provers, from the numbered rules of spec/. -/

open Sys2Proof Sys2Proof.Machine

/-! ## Encoding (30_encoding.md) -/

/-- Decode and encode agree: every well-formed instruction is read back from its word, and from its word's bytes, with every
operand (R63, R70). -/
def Obligations.DecodeInvertsEncode : Prop :=
  ∀ i : Instr, wellFormed i = true →
    decode (encode i) = .ok i ∧ decodeBytes (bytesOfWord (encode i)) = .ok (i, [])

/-- Each word has one meaning: a word that decodes is the encoding of what it decodes to, which is well-formed. -/
def Obligations.EncodeInvertsDecode : Prop :=
  ∀ (w : InstrWord) (i : Instr), decode w = .ok i → wellFormed i = true ∧ encode i = w

/-- The classifier of R75, row by row; R76: nothing but opcode and funct3 is read, and every SYSTEM word with funct3 = 000 is
Unimplemented. -/
def Obligations.ClassifyReadsOpcodeAndFunct3 : Prop :=
  ∀ w : InstrWord,
    (classify w = .auipc ↔ fieldOpcode w = 0b0010111#7) ∧
    (classify w = .jal ↔ fieldOpcode w = 0b1101111#7) ∧
    (classify w = .addi ↔ fieldOpcode w = 0b0010011#7 ∧ fieldFunct3 w = 0b000#3) ∧
    (classify w = .bne ↔ fieldOpcode w = 0b1100011#7 ∧ fieldFunct3 w = 0b001#3) ∧
    (classify w = .csrrw ↔ fieldOpcode w = 0b1110011#7 ∧ fieldFunct3 w = 0b001#3) ∧
    (classify w = .csrrs ↔ fieldOpcode w = 0b1110011#7 ∧ fieldFunct3 w = 0b010#3) ∧
    (classify w = .csrrwi ↔ fieldOpcode w = 0b1110011#7 ∧ fieldFunct3 w = 0b101#3) ∧
    (fieldOpcode w = 0b1110011#7 → fieldFunct3 w = 0b000#3 → classify w = .unimplemented) ∧
    (∀ w' : InstrWord, fieldOpcode w' = fieldOpcode w → fieldFunct3 w' = fieldFunct3 w → classify w' = classify w)

/-- The mask and match table of R77 (spec/opcode_table.json) says the same as the classifier, and no word matches two
rows. -/
def Obligations.OpcodeTableClassifies : Prop :=
  (∀ w : InstrWord, ∀ row ∈ opcodeTable, (row.accepts w = true ↔ classify w = row.itype)) ∧
  (∀ w : InstrWord, classify w = .unimplemented ↔ ∀ row ∈ opcodeTable, row.accepts w = false) ∧
  (∀ w : InstrWord, ∀ row ∈ opcodeTable, ∀ row' ∈ opcodeTable, row.accepts w = true → row'.accepts w = true → row = row')

/-- R61: each field is exactly its bit range, for every word. -/
def Obligations.FieldsAreTheirBitRanges : Prop :=
  ∀ w : InstrWord,
    (fieldOpcode w).toNat = w.toNat % 2 ^ 7 ∧
    (fieldRd w).val = w.toNat / 2 ^ 7 % 2 ^ 5 ∧
    (fieldFunct3 w).toNat = w.toNat / 2 ^ 12 % 2 ^ 3 ∧
    (fieldRs1 w).val = w.toNat / 2 ^ 15 % 2 ^ 5 ∧
    (fieldRs2 w).val = w.toNat / 2 ^ 20 % 2 ^ 5 ∧
    (fieldCsr w).val = w.toNat / 2 ^ 20

/-- R64, R65 and R68: the U-, I- and CSR immediates as integers of the word's bits, and their ranges. -/
def Obligations.UpperAndShortImmediates : Prop :=
  ∀ w : InstrWord,
    immU w = 4096 * ((w.toNat / 2 ^ 12 : Nat) : Int) - (if w.getLsbD 31 then 2 ^ 32 else 0) ∧ WellFormedU (immU w) ∧
    immI w = ((w.toNat / 2 ^ 20 : Nat) : Int) - (if w.getLsbD 31 then 2 ^ 12 else 0) ∧ WellFormedI (immI w) ∧
    (immUimm w).val = w.toNat / 2 ^ 15 % 2 ^ 5

/-- R66 and R67: the J- and B-immediates as integers of the word's bits, and their ranges. -/
def Obligations.JumpAndBranchImmediates : Prop :=
  ∀ w : InstrWord,
    immJ w = ((2 * (w.toNat / 2 ^ 21 % 2 ^ 10) + 2 ^ 11 * (w.toNat / 2 ^ 20 % 2) + 2 ^ 12 * (w.toNat / 2 ^ 12 % 2 ^ 8) : Nat)
      : Int) - (if w.getLsbD 31 then 2 ^ 20 else 0) ∧ WellFormedJ (immJ w) ∧
    immB w = ((2 * (w.toNat / 2 ^ 8 % 2 ^ 4) + 2 ^ 5 * (w.toNat / 2 ^ 25 % 2 ^ 6) + 2 ^ 11 * (w.toNat / 2 ^ 7 % 2) : Nat)
      : Int) - (if w.getLsbD 31 then 2 ^ 12 else 0) ∧ WellFormedB (immB w)

/-- R70: a word whose bits hold an immediate's placement, whatever its other bits, decodes to that immediate. -/
def Obligations.PlacedImmediatesReadBack : Prop :=
  ∀ (w : InstrWord) (v : Int),
    (WellFormedU v → w.extractLsb' 12 20 = (BitVec.ofInt 32 v).extractLsb' 12 20 → immU w = v) ∧
    (WellFormedI v → w.extractLsb' 20 12 = BitVec.ofInt 12 v → immI w = v) ∧
    (WellFormedJ v → w.extractLsb' 31 1 = (BitVec.ofInt 21 v).extractLsb' 20 1 →
      w.extractLsb' 21 10 = (BitVec.ofInt 21 v).extractLsb' 1 10 → w.extractLsb' 20 1 = (BitVec.ofInt 21 v).extractLsb' 11 1 →
      w.extractLsb' 12 8 = (BitVec.ofInt 21 v).extractLsb' 12 8 → immJ w = v) ∧
    (WellFormedB v → w.extractLsb' 31 1 = (BitVec.ofInt 13 v).extractLsb' 12 1 →
      w.extractLsb' 25 6 = (BitVec.ofInt 13 v).extractLsb' 5 6 → w.extractLsb' 8 4 = (BitVec.ofInt 13 v).extractLsb' 1 4 →
      w.extractLsb' 7 1 = (BitVec.ofInt 13 v).extractLsb' 11 1 → immB w = v) ∧
    (∀ u : Uimm, w.extractLsb' 15 5 = BitVec.ofNat 5 u.val → immUimm w = u)

/-- R69: an immediate as a register-width value is the sign extension of its assembled bits (the zero extension for
CSRRWI's), at XLEN = 32 and at XLEN = 64. -/
def Obligations.ImmediatesExtendToXlen : Prop :=
  ∀ (x : Xlen) (w : InstrWord),
    immValue x.bits (immU w) = (w.extractLsb' 12 20 ++ 0#12 : BitVec 32).signExtend x.bits ∧
    immValue x.bits (immI w) = (w.extractLsb' 20 12).signExtend x.bits ∧
    immValue x.bits (immJ w) = (w.extractLsb' 31 1 ++ w.extractLsb' 12 8 ++ w.extractLsb' 20 1 ++ w.extractLsb' 21 10 ++ 0#1
      : BitVec 21).signExtend x.bits ∧
    immValue x.bits (immB w) = (w.extractLsb' 31 1 ++ w.extractLsb' 7 1 ++ w.extractLsb' 25 6 ++ w.extractLsb' 8 4 ++ 0#1
      : BitVec 13).signExtend x.bits ∧
    uimmValue x.bits (immUimm w) = (w.extractLsb' 15 5).setWidth x.bits

/-- One word of each instruction, from the examples of 41 to 44, decodes to it. -/
def Obligations.ExampleWordsDecode : Prop :=
  decode 0x12345297#32 = .ok (.auipc 5 0x12345000) ∧
  decode 0x008000EF#32 = .ok (.jal 1 8) ∧
  decode 0x00A00513#32 = .ok (.addi 10 0 10) ∧
  decode 0xFE009CE3#32 = .ok (.bne 1 0 (-8)) ∧
  decode 0x34009173#32 = .ok (.csrrw 2 0x340 1) ∧
  decode 0x3400A1F3#32 = .ok (.csrrs 3 0x340 1) ∧
  decode 0x340FD273#32 = .ok (.csrrwi 4 0x340 31)

/-! ## The step (40_engine.md, 20_memory.md, 60_exceptions.md) -/

/-- A step runs the decoded instruction: when the four bytes at the pc are in bounds and decode to an instruction, the step
is that instruction's exec, which advances or redirects the pc itself (R93). -/
def Obligations.StepRunsTheDecodedInstruction : Prop :=
  ∀ (s : State) (i : Instr), s.status = .live → s.mem.InBounds s.hart0.pc.toNat 4 →
    decodeBytes [s.mem.readByte s.hart0.pc.toNat, s.mem.readByte (s.hart0.pc.toNat + 1),
      s.mem.readByte (s.hart0.pc.toNat + 2), s.mem.readByte (s.hart0.pc.toNat + 3)] = .ok (i, []) →
    step s = exec i s

/-- R45: the fetch reads the four bytes at the pc, little-endian and at any alignment, when they are in bounds; otherwise
the step fails with the pc. Where R41's derived sentence differs from R45 (XLEN 32, a pc just below 2^32), this is R45's
reading, the model's choice (log entry 23). -/
def Obligations.FetchIsLittleEndianAndBounded : Prop :=
  ∀ s : State,
    (s.hart0.pc.toNat + 4 ≤ s.mem.capacity → ∃ w : InstrWord, s.fetch = some w ∧
      w.toNat = (s.mem.readByte s.hart0.pc.toNat).toNat + 2 ^ 8 * (s.mem.readByte (s.hart0.pc.toNat + 1)).toNat +
        2 ^ 16 * (s.mem.readByte (s.hart0.pc.toNat + 2)).toNat + 2 ^ 24 * (s.mem.readByte (s.hart0.pc.toNat + 3)).toNat) ∧
    (s.mem.capacity < s.hart0.pc.toNat + 4 → s.fetch = none ∧
      (s.status = .live → step s = .fault (.fetchOutOfBounds s.hart0.pc.toNat)))

/-- R162: when, and only when, a step fails with FetchOutOfBounds, and with which pc. -/
def Obligations.FetchOutOfBoundsExactly : Prop :=
  ∀ (s : State) (p : Nat),
    step s = .fault (.fetchOutOfBounds p) ↔
      s.status = .live ∧ s.mem.capacity < s.hart0.pc.toNat + 4 ∧ p = s.hart0.pc.toNat

/-- R161: when, and only when, a step fails with IllegalInstruction, and with which pc and word. -/
def Obligations.IllegalInstructionExactly : Prop :=
  ∀ (s : State) (p : Nat) (w : InstrWord),
    step s = .fault (.illegalInstruction p w) ↔
      s.status = .live ∧ s.fetch = some w ∧ p = s.hart0.pc.toNat ∧
        (classify w = .unimplemented ∨
          ((classify w = .csrrw ∨ classify w = .csrrs ∨ classify w = .csrrwi) ∧
            csrPresent s.params (fieldCsr w) = false))

/-- R78: a word outside the seven fails whatever the state; the all-zero and the all-ones word are such words. -/
def Obligations.UnimplementedWordsFail : Prop :=
  (∀ (s : State) (w : InstrWord), s.status = .live → s.fetch = some w → classify w = .unimplemented →
    step s = .fault (.illegalInstruction s.hart0.pc.toNat w)) ∧
  classify 0x00000000#32 = .unimplemented ∧ classify 0xFFFFFFFF#32 = .unimplemented

/-- R163: a step of a live machine completes or fails in one of the two ways, at its own pc, and is never refused. -/
def Obligations.StepsFailInTwoWaysOnly : Prop :=
  ∀ s : State, s.status = .live →
    (∃ t, step s = .next t) ∨ step s = .fault (.fetchOutOfBounds s.hart0.pc.toNat) ∨
      ∃ w, s.fetch = some w ∧ step s = .fault (.illegalInstruction s.hart0.pc.toNat w)

/-- When a step completes: exactly on a live machine whose fetched word is one of the seven and names, if it is a CSR
instruction, a CSR that is present (R93, R140). -/
def Obligations.StepCompletesExactly : Prop :=
  ∀ s : State, s.Completes ↔
    s.status = .live ∧ ∃ w, s.fetch = some w ∧ classify w ≠ .unimplemented ∧
      (classify w = .csrrw ∨ classify w = .csrrs ∨ classify w = .csrrwi → csrPresent s.params (fieldCsr w) = true)

/-! ## The instructions. `{ s with hart0 := h' }` is the whole frame outside the hart: parameters, status and memory are as
before. -/

/-- AUIPC (R110): its words, its result, and everything it leaves alone. -/
def Obligations.AuipcAddsUpperImmediateToPc : Prop :=
  (∀ w : InstrWord, w &&& 0x0000007F#32 = 0x00000017#32 → decode w = .ok (.auipc (fieldRd w) (immU w))) ∧
  ∀ (rd : RegIdx) (imm : Int) (s : State), ∃ h' : Hart s.params.xlen.bits,
    exec (.auipc rd imm) s = .next { s with hart0 := h' } ∧
    h'.readX rd = (if rd = 0 then 0 else s.hart0.pc + BitVec.ofInt _ imm) ∧
    h'.pc = s.hart0.pc + 4 ∧
    (∀ r, r ≠ rd → h'.readX r = s.hart0.readX r) ∧ (∀ a, h'.readCsr a = s.hart0.readCsr a) ∧ h'.id = s.hart0.id

/-- JAL (R111): its words, the link, the target, and everything it leaves alone. -/
def Obligations.JalLinksAndJumps : Prop :=
  (∀ w : InstrWord, w &&& 0x0000007F#32 = 0x0000006F#32 → decode w = .ok (.jal (fieldRd w) (immJ w))) ∧
  ∀ (rd : RegIdx) (imm : Int) (s : State), ∃ h' : Hart s.params.xlen.bits,
    exec (.jal rd imm) s = .next { s with hart0 := h' } ∧
    h'.readX rd = (if rd = 0 then 0 else s.hart0.pc + 4) ∧
    h'.pc = s.hart0.pc + BitVec.ofInt _ imm ∧
    (∀ r, r ≠ rd → h'.readX r = s.hart0.readX r) ∧ (∀ a, h'.readCsr a = s.hart0.readCsr a) ∧ h'.id = s.hart0.id

/-- ADDI (R120): its words, the wrapped sum of the OLD source and the immediate (also when rd = rs1), and everything it
leaves alone. -/
def Obligations.AddiAddsImmediate : Prop :=
  (∀ w : InstrWord, w &&& 0x0000707F#32 = 0x00000013#32 → decode w = .ok (.addi (fieldRd w) (fieldRs1 w) (immI w))) ∧
  ∀ (rd rs1 : RegIdx) (imm : Int) (s : State), ∃ h' : Hart s.params.xlen.bits,
    exec (.addi rd rs1 imm) s = .next { s with hart0 := h' } ∧
    h'.readX rd = (if rd = 0 then 0 else s.hart0.readX rs1 + BitVec.ofInt _ imm) ∧
    h'.pc = s.hart0.pc + 4 ∧
    (∀ r, r ≠ rd → h'.readX r = s.hart0.readX r) ∧ (∀ a, h'.readCsr a = s.hart0.readCsr a) ∧ h'.id = s.hart0.id

/-- BNE (R130): its words, taken and not taken, and that it writes nothing but the pc; a branch comparing a register with
itself is never taken. -/
def Obligations.BneBranchesWhenRegistersDiffer : Prop :=
  (∀ w : InstrWord, w &&& 0x0000707F#32 = 0x00001063#32 → decode w = .ok (.bne (fieldRs1 w) (fieldRs2 w) (immB w))) ∧
  ∀ (rs1 rs2 : RegIdx) (imm : Int) (s : State), ∃ h' : Hart s.params.xlen.bits,
    exec (.bne rs1 rs2 imm) s = .next { s with hart0 := h' } ∧
    (s.hart0.readX rs1 ≠ s.hart0.readX rs2 → h'.pc = s.hart0.pc + BitVec.ofInt _ imm) ∧
    (s.hart0.readX rs1 = s.hart0.readX rs2 → h'.pc = s.hart0.pc + 4) ∧
    (rs1 = rs2 → h'.pc = s.hart0.pc + 4) ∧
    (∀ r, h'.readX r = s.hart0.readX r) ∧ (∀ a, h'.readCsr a = s.hart0.readCsr a) ∧ h'.id = s.hart0.id

/-- CSRRW (R141 with the check of R140): its words; on a present CSR the old value to rd and the OLD rs1 to the CSR (rd = rs1
swaps them), and everything it leaves alone; on an absent CSR the failure with its own pc and word. -/
def Obligations.CsrrwReplacesCsr : Prop :=
  (∀ w : InstrWord, w &&& 0x0000707F#32 = 0x00001073#32 → decode w = .ok (.csrrw (fieldRd w) (fieldCsr w) (fieldRs1 w))) ∧
  ∀ (rd : RegIdx) (a : CsrAddr) (rs1 : RegIdx) (s : State), SparseWF 0 s.hart0.csr →
    (csrPresent s.params a = true → ∃ h' : Hart s.params.xlen.bits,
      exec (.csrrw rd a rs1) s = .next { s with hart0 := h' } ∧
      h'.readX rd = (if rd = 0 then 0 else s.hart0.readCsr a) ∧
      h'.readCsr a = s.hart0.readX rs1 ∧
      h'.pc = s.hart0.pc + 4 ∧
      (∀ r, r ≠ rd → h'.readX r = s.hart0.readX r) ∧ (∀ b, b ≠ a → h'.readCsr b = s.hart0.readCsr b) ∧
      h'.id = s.hart0.id) ∧
    (csrPresent s.params a = false →
      exec (.csrrw rd a rs1) s = .fault (.illegalInstruction s.hart0.pc.toNat (encode (.csrrw rd a rs1))))

/-- CSRRS (R142 with the check of R140): as CSRRW, but the CSR becomes the OR of its old value and the OLD rs1, and rd gets
the value before the OR. -/
def Obligations.CsrrsSetsBits : Prop :=
  (∀ w : InstrWord, w &&& 0x0000707F#32 = 0x00002073#32 → decode w = .ok (.csrrs (fieldRd w) (fieldCsr w) (fieldRs1 w))) ∧
  ∀ (rd : RegIdx) (a : CsrAddr) (rs1 : RegIdx) (s : State), SparseWF 0 s.hart0.csr →
    (csrPresent s.params a = true → ∃ h' : Hart s.params.xlen.bits,
      exec (.csrrs rd a rs1) s = .next { s with hart0 := h' } ∧
      h'.readX rd = (if rd = 0 then 0 else s.hart0.readCsr a) ∧
      h'.readCsr a = s.hart0.readCsr a ||| s.hart0.readX rs1 ∧
      h'.pc = s.hart0.pc + 4 ∧
      (∀ r, r ≠ rd → h'.readX r = s.hart0.readX r) ∧ (∀ b, b ≠ a → h'.readCsr b = s.hart0.readCsr b) ∧
      h'.id = s.hart0.id) ∧
    (csrPresent s.params a = false →
      exec (.csrrs rd a rs1) s = .fault (.illegalInstruction s.hart0.pc.toNat (encode (.csrrs rd a rs1))))

/-- CSRRWI (R143 with the check of R140): as CSRRW, but the CSR becomes the zero-extended 5-bit immediate, and no general
register is read. -/
def Obligations.CsrrwiWritesImmediate : Prop :=
  (∀ w : InstrWord, w &&& 0x0000707F#32 = 0x00005073#32 → decode w = .ok (.csrrwi (fieldRd w) (fieldCsr w) (immUimm w))) ∧
  ∀ (rd : RegIdx) (a : CsrAddr) (u : Uimm) (s : State), SparseWF 0 s.hart0.csr →
    (csrPresent s.params a = true → ∃ h' : Hart s.params.xlen.bits,
      exec (.csrrwi rd a u) s = .next { s with hart0 := h' } ∧
      h'.readX rd = (if rd = 0 then 0 else s.hart0.readCsr a) ∧
      (h'.readCsr a).toNat = u.val ∧
      h'.pc = s.hart0.pc + 4 ∧
      (∀ r, r ≠ rd → h'.readX r = s.hart0.readX r) ∧ (∀ b, b ≠ a → h'.readCsr b = s.hart0.readCsr b) ∧
      h'.id = s.hart0.id) ∧
    (csrPresent s.params a = false →
      exec (.csrrwi rd a u) s = .fault (.illegalInstruction s.hart0.pc.toNat (encode (.csrrwi rd a u))))

/-- R140 and R146: presence alone decides whether a CSR instruction completes; no mode, register, address range or other
state does, and rd = x0 or rs1 = x0 makes no exception. On an absent CSR the step fails with its pc and its word. -/
def Obligations.PresenceAloneDecidesCsrAccess : Prop :=
  (∀ (i : Instr) (a : CsrAddr) (s : State), i.csr? = some a →
    ((∃ t, exec i s = .next t) ↔ csrPresent s.params a = true)) ∧
  (∀ (w : InstrWord) (i : Instr) (a : CsrAddr) (s : State), s.status = .live → s.fetch = some w → decode w = .ok i →
    i.csr? = some a → csrPresent s.params a = false →
    step s = .fault (.illegalInstruction s.hart0.pc.toNat w))

/-- R144: CSRRW with rd = x0 and CSRRWI with rd = x0 still write the CSR; CSRRS with rs1 = x0 still reads it and leaves its
value. -/
def Obligations.NoCsrAccessIsSkipped : Prop :=
  ∀ (a : CsrAddr) (s : State), SparseWF 0 s.hart0.csr → csrPresent s.params a = true →
    (∀ rs1 : RegIdx, ∃ h' : Hart s.params.xlen.bits,
      exec (.csrrw 0 a rs1) s = .next { s with hart0 := h' } ∧ h'.readCsr a = s.hart0.readX rs1 ∧
      ∀ r, h'.readX r = s.hart0.readX r) ∧
    (∀ rd : RegIdx, ∃ h' : Hart s.params.xlen.bits,
      exec (.csrrs rd a 0) s = .next { s with hart0 := h' } ∧ h'.readX rd = (if rd = 0 then 0 else s.hart0.readCsr a) ∧
      ∀ b, h'.readCsr b = s.hart0.readCsr b) ∧
    (∀ u : Uimm, ∃ h' : Hart s.params.xlen.bits,
      exec (.csrrwi 0 a u) s = .next { s with hart0 := h' } ∧ (h'.readCsr a).toNat = u.val ∧
      ∀ r, h'.readX r = s.hart0.readX r)

/-! ## Registers and CSRs (10_state.md) -/

/-- R22: x[0] reads as 0, a write to it is discarded, and every other register reads as what was last written to it. -/
def Obligations.RegisterZeroIsWired : Prop :=
  ∀ (x : Xlen) (h : Hart x.bits) (v : BitVec x.bits),
    h.readX 0 = 0 ∧ h.writeX 0 v = h ∧
    ∀ r : RegIdx, r ≠ 0 → (h.writeX r v).readX r = v ∧ ∀ q, q ≠ r → (h.writeX r v).readX q = h.readX q

/-- R28: a CSR reads as what was last written to it, all XLEN bits; no write reaches another CSR, a register, the pc or the
id (R27: "no side effect on any other state"). -/
def Obligations.CsrsHoldWhatIsWritten : Prop :=
  ∀ (x : Xlen) (h : Hart x.bits) (a : CsrAddr) (v : BitVec x.bits), SparseWF 0 h.csr →
    (h.writeCsr a v).readCsr a = v ∧ (∀ b, b ≠ a → (h.writeCsr a v).readCsr b = h.readCsr b) ∧
    (h.writeCsr a v).x = h.x ∧ (h.writeCsr a v).pc = h.pc ∧ (h.writeCsr a v).id = h.id

/-! ## Every instruction -/

/-- The frame of every instruction: it writes no register but its rd and no CSR but its own, and never the parameters, the
status, the hart id, CAPACITY or a byte of memory (R23, R50). -/
def Obligations.EveryInstructionKeepsItsFrame : Prop :=
  ∀ (i : Instr) (s t : State), SparseWF 0 s.hart0.csr → exec i s = .next t → ∃ h' : Hart s.params.xlen.bits,
    t = { s with hart0 := h' } ∧
    (∀ r, i.rd? ≠ some r → h'.readX r = s.hart0.readX r) ∧
    (∀ a, i.csr? ≠ some a → h'.readCsr a = s.hart0.readCsr a) ∧
    h'.id = s.hart0.id ∧ t.mem.capacity = s.mem.capacity ∧ ∀ a, t.mem.readByte a = s.mem.readByte a

/-- R98: the pc after a step that completes, once and modulo 2^XLEN. -/
def Obligations.PcAfterACompletedStep : Prop :=
  ∀ s t : State, step s = .next t → ∃ (w : InstrWord) (i : Instr) (h' : Hart s.params.xlen.bits),
    s.fetch = some w ∧ decode w = .ok i ∧ t = { s with hart0 := h' } ∧
    h'.pc = (match i with
      | .jal _ imm => s.hart0.pc + BitVec.ofInt _ imm
      | .bne rs1 rs2 imm => if s.hart0.readX rs1 ≠ s.hart0.readX rs2 then s.hart0.pc + BitVec.ofInt _ imm else s.hart0.pc + 4
      | .auipc _ _ => s.hart0.pc + 4
      | .addi _ _ _ => s.hart0.pc + 4
      | .csrrw _ _ _ => s.hart0.pc + 4
      | .csrrs _ _ _ => s.hart0.pc + 4
      | .csrrwi _ _ _ => s.hart0.pc + 4)

/-- Memory reaches a step only through the fetched word, and no step changes it (R50, R53): with another memory that fetches
the same, the step does the same and that memory stays as it is. -/
def Obligations.MemoryReachesAStepOnlyByFetch : Prop :=
  ∀ (s : State) (m : Memory), ({ s with mem := m } : State).fetch = s.fetch →
    step { s with mem := m } =
      (match step s with
        | .next t => .next { t with mem := m }
        | .fault f => .fault f
        | .refused r => .refused r) ∧
    ∀ t, step s = .next t → t.mem = s.mem

/-! ## Invariants -/

/-- Every step keeps a machine legal: memory and CSRs in canonical form, nothing stored above CAPACITY or in an absent CSR,
CAPACITY a multiple of PAGE_SIZE, hart id 0, x[0] 0. -/
def Obligations.StepKeepsLegal : Prop := ∀ s t : State, s.Legal → step s = .next t → t.Legal

/-- The machine after reset is legal. -/
def Obligations.ResetIsLegal : Prop := State.reset.Legal

/-- Whatever a run watches, it stays among legal machines. Watching a run, and `unfinished`, are the model's (DESIGN CHOICE,
log entry 12). -/
def Obligations.RunStaysLegal : Prop :=
  ∀ (o : Options) (watch : Nat) (s : State), s.Legal →
    match run o watch s with
    | .failure _ t => t.Legal
    | .stepLimitReached _ t => t.Legal
    | .unfinished _ t => t.Legal
    | .refused _ => True

/-- "a pc that starts even stays even" (R26): every offset and every advance is even. -/
def Obligations.EvenPcStaysEven : Prop :=
  ∀ s t : State, s.hart0.pc.toNat % 2 = 0 → step s = .next t → t.hart0.pc.toNat % 2 = 0

/-! ## Memory's load port (20_memory.md) -/

/-- R47: MemWrite writes all its bytes when they fit and nothing else, and otherwise answers out of bounds. -/
def Obligations.MemWriteIsAllOrNothing : Prop :=
  ∀ (m : Memory) (a : Nat) (bytes : List Byte), m.wf →
    (a + bytes.length ≤ m.capacity → ∃ m', m.write a bytes = some m' ∧ m'.capacity = m.capacity ∧
      (∀ i (hi : i < bytes.length), m'.readByte (a + i) = bytes[i]) ∧
      ∀ b, b < a ∨ a + bytes.length ≤ b → m'.readByte b = m.readByte b) ∧
    (m.capacity < a + bytes.length → m.write a bytes = none)

/-- R48: descriptors are applied in list order, a later one over an earlier one; application stops at the first that does not
fit, whose error it reports, and those before it stay applied. -/
def Obligations.DescriptorsApplyInOrder : Prop :=
  ∀ (m : Memory) (content : List Descriptor), m.wf →
    ((∀ d ∈ content, d.Fits m.capacity) → (applyDescriptors m content).2 = none ∧
      ∀ a, (applyDescriptors m content).1.readByte a = (lastDescriptorByte content a).getD (m.readByte a)) ∧
    (∀ (before after : List Descriptor) (d : Descriptor), content = before ++ d :: after →
      (∀ e ∈ before, e.Fits m.capacity) → ¬ d.Fits m.capacity →
      applyDescriptors m content =
        ((applyDescriptors m before).1, some (.descriptorOutOfBounds d.offset d.bytes.length)))

/-! ## Create, reset, destroy (70_reset_and_hazards.md) -/

/-- R181: create rejects every hart count but one, whatever its other arguments. -/
def Obligations.CreateRejectsOtherHartCounts : Prop :=
  ∀ (p : Params) (alloc : Allocation) (req : Nat) (content : List Descriptor) (count : Nat),
    (count = 0 → create p alloc req content count = .error .hartCountZero) ∧
    (2 ≤ count → create p alloc req content count = .error (.hartCountUnsupported count)) ∧
    (∀ s, create p alloc req content count = .ok s → count = 1)

/-- R180: with a hart count of one, the capacity is checked first, then the allocation, then the descriptors; with none of
these errors create makes a live machine. -/
def Obligations.CreateChecksInOrder : Prop :=
  ∀ (p : Params) (alloc : Allocation) (req : Nat) (content : List Descriptor),
    (req = 0 ∨ alloc.addressable < roundUpToPage p.pageSize req →
      create p alloc req content 1 = .error (.capacityError req)) ∧
    (0 < req → roundUpToPage p.pageSize req ≤ alloc.addressable →
      (alloc.succeeds = false → create p alloc req content 1 = .error .outOfMemory) ∧
      (alloc.succeeds = true →
        (∀ (before after : List Descriptor) (d : Descriptor), content = before ++ d :: after →
          (∀ e ∈ before, e.Fits (roundUpToPage p.pageSize req)) → ¬ d.Fits (roundUpToPage p.pageSize req) →
          create p alloc req content 1 = .error (.descriptorOutOfBounds d.offset d.bytes.length)) ∧
        ((∀ d ∈ content, d.Fits (roundUpToPage p.pageSize req)) →
          ∃ s, create p alloc req content 1 = .ok s ∧ s.params = p ∧ s.status = .live)))

/-- R33: every piece of state after a successful create and after a successful reset; and a reset with create's list gives
the machine create made. -/
def Obligations.StateAfterCreateAndReset : Prop :=
  (∀ (p : Params) (alloc : Allocation) (req : Nat) (content : List Descriptor) (count : Nat) (s : State),
    create p alloc req content count = .ok s →
    s.params = p ∧ s.status = .live ∧ s.mem.capacity = roundUpToPage p.pageSize req ∧
    (∀ a, s.mem.readByte a = (lastDescriptorByte content a).getD 0) ∧
    s.hart0.id = 0 ∧ s.hart0.pc = 0 ∧ (∀ r : RegIdx, s.hart0.x[r.val] = 0 ∧ s.hart0.readX r = 0) ∧
    (∀ a : CsrAddr, s.hart0.readCsr a = sparseGet 0 s.params.csrReset a.val) ∧
    ∀ again : Allocation, again.succeeds = true → hostReset again content s = .ok s) ∧
  (∀ (alloc : Allocation) (content : List Descriptor) (s t : State), hostReset alloc content s = .ok t →
    t.params = s.params ∧ t.status = .live ∧ t.mem.capacity = s.mem.capacity ∧
    (∀ a, t.mem.readByte a = (lastDescriptorByte content a).getD 0) ∧
    t.hart0.id = 0 ∧ t.hart0.pc = 0 ∧ (∀ r : RegIdx, t.hart0.x[r.val] = 0 ∧ t.hart0.readX r = 0) ∧
    ∀ a : CsrAddr, t.hart0.readCsr a = sparseGet 0 t.params.csrReset a.val)

/-- R185: reset leaves no residue: two live machines of the same parameters and CAPACITY are the same after the same reset,
whatever ran before; and a second reset with the same list changes nothing. R185 speaks of a reset that succeeds. That two
resets that fail also leave equal Defunct machines is the model's choice: R186 gives such a machine no content (DESIGN CHOICE,
log entry 9). -/
def Obligations.ResetLeavesNoResidue : Prop :=
  (∀ (alloc : Allocation) (content : List Descriptor) (s s' : State), s.status = .live → s'.status = .live →
    s.params = s'.params → s.mem.capacity = s'.mem.capacity →
    hostReset alloc content s = hostReset alloc content s') ∧
  (∀ (alloc : Allocation) (content : List Descriptor) (s t : State), hostReset alloc content s = .ok t →
    hostReset alloc content t = .ok t)

/-- How a reset ends on a live machine (R184, R186): out of memory, or at the first descriptor that does not fit, it fails
with that error and leaves the machine Defunct; otherwise it succeeds. -/
def Obligations.ResetFailsOrSucceeds : Prop :=
  ∀ (alloc : Allocation) (content : List Descriptor) (s : State), s.status = .live →
    (alloc.succeeds = false → ∃ t, hostReset alloc content s = .failed .outOfMemory t ∧ t.status = .defunct) ∧
    (alloc.succeeds = true →
      (∀ (before after : List Descriptor) (d : Descriptor), content = before ++ d :: after →
        (∀ e ∈ before, e.Fits s.mem.capacity) → ¬ d.Fits s.mem.capacity →
        ∃ t, hostReset alloc content s = .failed (.descriptorOutOfBounds d.offset d.bytes.length) t ∧
          t.status = .defunct) ∧
      ((∀ d ∈ content, d.Fits s.mem.capacity) → ∃ t, hostReset alloc content s = .ok t))

/-- CAPACITY is the least whole number of pages that holds what was asked for (R40), and no step and no reset changes it. -/
def Obligations.CapacityIsWholePagesAndFixed : Prop :=
  (∀ (p : Params) (alloc : Allocation) (req : Nat) (content : List Descriptor) (count : Nat) (s : State),
    0 < p.pageSize → create p alloc req content count = .ok s →
    s.mem.capacity % p.pageSize = 0 ∧ req ≤ s.mem.capacity ∧ s.mem.capacity < req + p.pageSize) ∧
  (∀ s t : State, step s = .next t → t.mem.capacity = s.mem.capacity) ∧
  (∀ (alloc : Allocation) (content : List Descriptor) (s t : State), hostReset alloc content s = .ok t →
    t.mem.capacity = s.mem.capacity)

/-- R188: a machine whose reset failed, and a destroyed machine, are Defunct, and a Defunct machine has no run, reset or
destroy. That it has no step either is the model's inference (DEDUCED, log entry 10): R188 does not name a step. -/
def Obligations.DefunctMachinesAreRefused : Prop :=
  (∀ (alloc : Allocation) (content : List Descriptor) (s t : State) (e : ConstructionError),
    hostReset alloc content s = .failed e t → t.status = .defunct) ∧
  (∀ s t : State, hostDestroy s = .ok t → t.status = .defunct) ∧
  (∀ s : State, s.status = .defunct →
    step s = .refused .defunctMachine ∧ hostDestroy s = .refused .defunctMachine ∧
    (∀ alloc content, hostReset alloc content s = .refused .defunctMachine) ∧
    ∀ o watch, run o watch s = .refused .defunctMachine)

/-- A machine that create makes from admitted parameters is legal, and every reset and destroy of a legal machine leaves a
legal one. What a failed reset and a destroy leave is legal by the model's choice: the spec gives the content of a Defunct
machine nowhere (DESIGN CHOICE, log entry 9). -/
def Obligations.LifecycleKeepsLegal : Prop :=
  (∀ (p : Params) (alloc : Allocation) (req : Nat) (content : List Descriptor) (count : Nat) (s : State),
    paramsLegal p → create p alloc req content count = .ok s → s.Legal) ∧
  (∀ (alloc : Allocation) (content : List Descriptor) (s : State), s.Legal →
    match hostReset alloc content s with
    | .ok t => t.Legal
    | .failed _ t => t.Legal
    | .refused _ => True) ∧
  (∀ s t : State, s.Legal → hostDestroy s = .ok t → t.Legal)

/-- The state after reset is what create makes of an empty list on the model's chosen parameters (log entries 1, 2 and 3:
XLEN 64, PAGE_SIZE 4096 and a capacity of 4096 are the model's choice). -/
def Obligations.ResetStateIsCreated : Prop :=
  ∀ alloc : Allocation, alloc.succeeds = true → 4096 ≤ alloc.addressable →
    create (Params.atDefaults .x64) alloc 4096 [] 1 = .ok State.reset

/-! ## The run loop (40_engine.md) -/

/-- R100 and R101: a run of the engine ends only as R101's table says. A failure is that of the step after the completed ones,
in the state before it; the step limit is reached after exactly that many completed steps. The clause on `unfinished` is no
end of a run and no rule of the spec but the model's own (DESIGN CHOICE, log entry 12): a run the model stops watching has
completed a step for each it watched, all below the limit. -/
def Obligations.RunEndsAsTabled : Prop :=
  ∀ (o : Options) (watch : Nat) (s : State), s.status = .live → o.haltOnIllegal = true →
    match run o watch s with
    | .failure f t => ∃ k, Steps k s t ∧ step t = .fault f ∧ ∀ m, o.maxSteps = some m → k < m
    | .stepLimitReached n t => o.maxSteps = some n ∧ Steps n s t
    | .unfinished n t => n = watch ∧ Steps n s t ∧ ∀ m, o.maxSteps = some m → n < m
    | .refused _ => False

/-- A run with a step limit ends: watched for as many steps as the limit, it fails or reaches the limit; a limit of 0 runs no
step (R100). Watching a run is the model's way to speak of it (DESIGN CHOICE, log entry 12). -/
def Obligations.LimitedRunEnds : Prop :=
  ∀ (o : Options) (m watch : Nat) (s : State), s.status = .live → o.haltOnIllegal = true → o.maxSteps = some m → m ≤ watch →
    ((∃ f t, run o watch s = .failure f t) ∨ ∃ t, run o watch s = .stepLimitReached m t) ∧
    (m = 0 → run o watch s = .stepLimitReached 0 s)

/-- R102: the defaults; an unrecognised option, wherever it stands among the requests, is an error and no record is built; a
list without one that asks for no field twice, in any order, builds the record in which each field asked for has the value
asked for and each other field that of the record built over; `halt_on_illegal = false` has no run. (For a field asked for
twice see RepeatedRequestsAndFirstError.) -/
def Obligations.OptionsAreChecked : Prop :=
  buildOptions Options.defaults [] = .ok { trace := false, maxSteps := none, haltOnIllegal := true } ∧
  (∀ (o : Options) (requests : List OptionRequest) (name : String), .unrecognised name ∈ requests →
    ∃ e, buildOptions o requests = .error e) ∧
  (∀ (o : Options) (requests : List OptionRequest), (∀ name, .unrecognised name ∉ requests) →
    requests.Pairwise (fun q r => q.field? ≠ r.field?) →
    ∃ o', buildOptions o requests = .ok o' ∧
      (∀ on, .trace on ∈ requests → o'.trace = on) ∧
      (∀ limit, .maxSteps limit ∈ requests → o'.maxSteps = limit) ∧
      (∀ halt, .haltOnIllegal halt ∈ requests → o'.haltOnIllegal = halt) ∧
      ((∀ r ∈ requests, r.field? ≠ some .trace) → o'.trace = o.trace) ∧
      ((∀ r ∈ requests, r.field? ≠ some .maxSteps) → o'.maxSteps = o.maxSteps) ∧
      ((∀ r ∈ requests, r.field? ≠ some .haltOnIllegal) → o'.haltOnIllegal = o.haltOnIllegal)) ∧
  (∀ (o : Options) (watch : Nat) (s : State), s.status = .live → o.haltOnIllegal = false →
    run o watch s = .refused .continueOnIllegal)

/-- R104: the trace option changes no state and no outcome. -/
def Obligations.TraceChangesNothing : Prop :=
  ∀ (o : Options) (on : Bool) (watch : Nat) (s : State), run { o with trace := on } watch s = run o watch s

/-- R105: "a run started again after a failure, with no change to the state, fails again at once with the same failure". -/
def Obligations.FailedRunFailsAgain : Prop :=
  ∀ (o o' : Options) (watch watch' : Nat) (s t : State) (f : Fault), run o watch s = .failure f t →
    o'.haltOnIllegal = true → o'.maxSteps ≠ some 0 → 0 < watch' → run o' watch' t = .failure f t

/-- The model's choices where a list of requests leaves R102 open. A field asked for more than once builds a record all the
same, with the value asked for last (DESIGN CHOICE, log entry 13); of several unrecognised options the error names the first
(DESIGN CHOICE, log entry 24). -/
def Obligations.RepeatedRequestsAndFirstError : Prop :=
  ∀ (o : Options) (before after : List OptionRequest), (∀ name, .unrecognised name ∉ before) →
    (∀ name, buildOptions o (before ++ .unrecognised name :: after) = .error { name := name }) ∧
    ((∀ name, .unrecognised name ∉ after) →
      (∃ o', buildOptions o (before ++ after) = .ok o') ∧
      (∀ on, (∀ r ∈ after, r.field? ≠ some .trace) →
        ∃ o', buildOptions o (before ++ .trace on :: after) = .ok o' ∧ o'.trace = on) ∧
      (∀ limit, (∀ r ∈ after, r.field? ≠ some .maxSteps) →
        ∃ o', buildOptions o (before ++ .maxSteps limit :: after) = .ok o' ∧ o'.maxSteps = limit) ∧
      (∀ halt, (∀ r ∈ after, r.field? ≠ some .haltOnIllegal) →
        ∃ o', buildOptions o (before ++ .haltOnIllegal halt :: after) = .ok o' ∧ o'.haltOnIllegal = halt))
end

