-- ==== Sys2Proof/Laws/Engine.lean ====
section
/-! SUPPORT. The field of each request, and building an options record over a list of requests in two parts (spec/40_engine.md R102). -/

namespace Sys2Proof.Machine

@[simp] theorem OptionRequest.field?_trace (on : Bool) : (OptionRequest.trace on).field? = some .trace := rfl
@[simp] theorem OptionRequest.field?_maxSteps (limit : Option Nat) :
    (OptionRequest.maxSteps limit).field? = some .maxSteps := rfl
@[simp] theorem OptionRequest.field?_haltOnIllegal (halt : Bool) :
    (OptionRequest.haltOnIllegal halt).field? = some .haltOnIllegal := rfl
@[simp] theorem OptionRequest.field?_unrecognised (name : String) : (OptionRequest.unrecognised name).field? = none := rfl

/-- Requests are taken in order: the record of a longer list is built over the record of its first part, and an error in the
first part is the error of the whole. -/
theorem buildOptions_append (o : Options) (before after : List OptionRequest) :
    buildOptions o (before ++ after) =
      (match buildOptions o before with
        | .ok o' => buildOptions o' after
        | .error e => .error e) := by
  induction before generalizing o with
  | nil => rfl
  | cons r rs ih => cases r <;> simp only [List.cons_append, buildOptions, ih]

end Sys2Proof.Machine
end

