-- ==== Sys2Proof/Laws/Sparse.lean ====
section
/-! SUPPORT. Sparse storage: read after write, and the canonical form that every write keeps. -/

namespace Sys2Proof.Machine

variable {β : Type}

@[simp] theorem sparseGet_nil (d : β) (a : Nat) : sparseGet d [] a = d := rfl

/-- A place below every listed one holds the unlisted value. -/
theorem sparseGet_of_lt (d : β) (l : List (Nat × β)) (a : Nat) (h : ∀ c ∈ l, a < c.1) : sparseGet d l a = d := by
  induction l with
  | nil => rfl
  | cons c l ih =>
    have hc : a < c.1 := h c (by simp)
    have : c.1 ≠ a := by omega
    simp only [sparseGet, this, if_false]
    exact ih fun c' hc' => h c' (by simp [hc'])

variable [DecidableEq β]

/-- The written place reads as the written value. -/
theorem sparseGet_sparseSet_same (d : β) (l : List (Nat × β)) (a : Nat) (v : β)
    (h : l.Pairwise fun c c' => c.1 < c'.1) : sparseGet d (sparseSet d l a v) a = v := by
  induction l with
  | nil => by_cases hv : v = d <;> simp [sparseSet, sparseGet, hv]
  | cons c l ih =>
    obtain ⟨hc, hl⟩ := List.pairwise_cons.mp h
    have hlow : a ≤ c.1 → sparseGet d l a = d := fun he =>
      sparseGet_of_lt d l a fun c' hc' => lt_of_le_of_lt he (hc c' hc')
    rcases lt_trichotomy a c.1 with hlt | heq | hgt
    · have hne : c.1 ≠ a := by omega
      by_cases hv : v = d <;> simp [sparseSet, sparseGet, hlt, hne, hv, hlow hlt.le]
    · by_cases hv : v = d <;> simp [sparseSet, sparseGet, heq, hv, heq ▸ hlow heq.le]
    · have h1 : ¬ a < c.1 := by omega
      have h2 : a ≠ c.1 := by omega
      simp [sparseSet, sparseGet, h1, h2, h2.symm, ih hl]

/-- Every other place reads as before. -/
theorem sparseGet_sparseSet_other (d : β) (l : List (Nat × β)) (a b : Nat) (v : β) (hb : b ≠ a)
    (h : l.Pairwise fun c c' => c.1 < c'.1) : sparseGet d (sparseSet d l a v) b = sparseGet d l b := by
  induction l with
  | nil => by_cases hv : v = d <;> simp [sparseSet, sparseGet, hv, hb.symm]
  | cons c l ih =>
    obtain ⟨hc, hl⟩ := List.pairwise_cons.mp h
    rcases lt_trichotomy a c.1 with hlt | heq | hgt
    · by_cases hv : v = d <;> simp [sparseSet, sparseGet, hlt, hv, hb.symm]
    · have hne : c.1 ≠ b := by omega
      by_cases hv : v = d <;> simp [sparseSet, sparseGet, heq, hv, hne]
    · have h1 : ¬ a < c.1 := by omega
      have h2 : a ≠ c.1 := by omega
      simp [sparseSet, sparseGet, h1, h2, ih hl]

/-- Read after write, at every place. -/
theorem sparseGet_sparseSet (d : β) (l : List (Nat × β)) (a b : Nat) (v : β) (h : l.Pairwise fun c c' => c.1 < c'.1) :
    sparseGet d (sparseSet d l a v) b = if b = a then v else sparseGet d l b := by
  split_ifs with hb
  · exact hb ▸ sparseGet_sparseSet_same d l a v h
  · exact sparseGet_sparseSet_other d l a b v hb h

/-- Every entry after a write is the written one or was there before. -/
theorem mem_sparseSet (d : β) (l : List (Nat × β)) (a : Nat) (v : β) (c : Nat × β) (h : c ∈ sparseSet d l a v) :
    (c = (a, v) ∧ v ≠ d) ∨ c ∈ l := by
  induction l with
  | nil =>
    simp only [sparseSet] at h
    split_ifs at h with hv
    · simp at h
    · exact .inl ⟨by simpa using h, hv⟩
  | cons e l ih =>
    simp only [sparseSet] at h
    split_ifs at h with h1 hv h2 hv
    · exact .inr h
    · rcases List.mem_cons.mp h with h | h
      · exact .inl ⟨h, hv⟩
      · exact .inr h
    · exact .inr (List.mem_cons_of_mem _ h)
    · rcases List.mem_cons.mp h with h | h
      · exact .inl ⟨h, hv⟩
      · exact .inr (List.mem_cons_of_mem _ h)
    · rcases List.mem_cons.mp h with h | h
      · exact .inr (h ▸ List.mem_cons_self)
      · exact (ih h).imp id (List.mem_cons_of_mem _)

/-- A write keeps the canonical form. -/
theorem sparseSet_wf (d : β) (l : List (Nat × β)) (a : Nat) (v : β) (h : SparseWF d l) : SparseWF d (sparseSet d l a v) := by
  obtain ⟨hs, hd⟩ := h
  refine ⟨?_, fun c hc => ?_⟩
  · clear hd
    induction l with
    | nil => simp only [sparseSet]; split_ifs <;> simp
    | cons e l ih =>
      obtain ⟨he, hl⟩ := List.pairwise_cons.mp hs
      simp only [sparseSet]
      split_ifs with h1 hv h2 hv
      · exact hs
      · refine List.pairwise_cons.mpr ⟨fun c hc => ?_, hs⟩
        rcases List.mem_cons.mp hc with rfl | hc
        · exact h1
        · exact h1.trans (he c hc)
      · exact hl
      · exact List.pairwise_cons.mpr ⟨fun c hc => h2 ▸ he c hc, hl⟩
      · refine List.pairwise_cons.mpr ⟨fun c hc => ?_, ih hl⟩
        rcases mem_sparseSet d l a v c hc with ⟨rfl, -⟩ | hc
        · show e.1 < a; omega
        · exact he c hc
  · rcases mem_sparseSet d l a v c hc with ⟨rfl, hv⟩ | hc
    · exact hv
    · exact hd c hc

omit [DecidableEq β] in
/-- Canonical storages that read alike everywhere are equal data. -/
theorem sparse_ext (d : β) (l l' : List (Nat × β)) (h : SparseWF d l) (h' : SparseWF d l')
    (hget : ∀ a, sparseGet d l a = sparseGet d l' a) : l = l' := by
  have tail : ∀ (c : Nat × β) (l : List (Nat × β)), SparseWF d (c :: l) →
      SparseWF d l ∧ c.2 ≠ d ∧ ∀ b, b ≤ c.1 → sparseGet d l b = d := by
    intro c l h
    obtain ⟨hc, hl⟩ := List.pairwise_cons.mp h.1
    exact ⟨⟨hl, fun c' hc' => h.2 c' (by simp [hc'])⟩, h.2 c (by simp),
      fun b hb => sparseGet_of_lt d l b fun c' hc' => lt_of_le_of_lt hb (hc c' hc')⟩
  induction l generalizing l' with
  | nil =>
    cases l' with
    | nil => rfl
    | cons c l' => exact absurd (by simpa [sparseGet] using (hget c.1).symm) (tail c l' h').2.1
  | cons c l ih =>
    cases l' with
    | nil => exact absurd (by simpa [sparseGet] using hget c.1) (tail c l h).2.1
    | cons c' l' =>
      obtain ⟨hl, hc, hlow⟩ := tail c l h
      obtain ⟨hl', hc', hlow'⟩ := tail c' l' h'
      have hkey : c.1 = c'.1 := by
        rcases lt_trichotomy c.1 c'.1 with hlt | heq | hgt
        · have hne : ¬ c'.1 = c.1 := by omega
          have := hget c.1
          simp only [sparseGet, if_true, hne, if_false, hlow' c.1 (by omega)] at this
          exact absurd this hc
        · exact heq
        · have hne : ¬ c.1 = c'.1 := by omega
          have := hget c'.1
          simp only [sparseGet, if_true, hne, if_false, hlow c'.1 (by omega)] at this
          exact absurd this.symm hc'
      have hval : c.2 = c'.2 := by simpa [sparseGet, hkey] using hget c.1
      have hrest : l = l' := ih l' hl hl' fun a => by
        by_cases ha : c.1 = a
        · rw [hlow a (by omega), hlow' a (by omega)]
        · have ha' : ¬ c'.1 = a := by omega
          simpa only [sparseGet, ha, ha', if_false] using hget a
      rw [Prod.ext hkey hval, hrest]

end Sys2Proof.Machine
end

