-- ==== Sys2Proof/Laws/State.lean ====
section
/-! SUPPORT. One lemma per field per update of the state records, so that no later proof unfolds a record update. -/

namespace Sys2Proof.Machine

variable {n : Nat}

@[simp] theorem Memory.writeByte_capacity (m : Memory) (a : Nat) (b : Byte) :
    (m.writeByte a b).capacity = m.capacity := rfl
@[simp] theorem Memory.writeByte_cells (m : Memory) (a : Nat) (b : Byte) :
    (m.writeByte a b).cells = sparseSet 0 m.cells a b := rfl
@[simp] theorem Memory.withRoom_cells (m : Memory) (p k : Nat) : (m.withRoom p k).cells = m.cells := rfl

@[simp] theorem Hart.setPc_id (h : Hart n) (v : BitVec n) : (h.setPc v).id = h.id := rfl
@[simp] theorem Hart.setPc_pc (h : Hart n) (v : BitVec n) : (h.setPc v).pc = v := rfl
@[simp] theorem Hart.setPc_x (h : Hart n) (v : BitVec n) : (h.setPc v).x = h.x := rfl
@[simp] theorem Hart.setPc_csr (h : Hart n) (v : BitVec n) : (h.setPc v).csr = h.csr := rfl

@[simp] theorem Hart.writeCsr_id (h : Hart n) (a : CsrAddr) (v : BitVec n) : (h.writeCsr a v).id = h.id := rfl
@[simp] theorem Hart.writeCsr_pc (h : Hart n) (a : CsrAddr) (v : BitVec n) : (h.writeCsr a v).pc = h.pc := rfl
@[simp] theorem Hart.writeCsr_x (h : Hart n) (a : CsrAddr) (v : BitVec n) : (h.writeCsr a v).x = h.x := rfl
@[simp] theorem Hart.writeCsr_csr (h : Hart n) (a : CsrAddr) (v : BitVec n) :
    (h.writeCsr a v).csr = sparseSet 0 h.csr a.val v := rfl

@[simp] theorem Hart.reset_id (p : Params) : (Hart.reset p).id = 0 := rfl
@[simp] theorem Hart.reset_pc (p : Params) : (Hart.reset p).pc = 0 := rfl
@[simp] theorem Hart.reset_x (p : Params) : (Hart.reset p).x = Vector.replicate 32 0 := rfl
@[simp] theorem Hart.reset_csr (p : Params) : (Hart.reset p).csr = p.csrReset := rfl

@[simp] theorem State.commit_params (s : State) (e : Effects s.params.xlen.bits) :
    (s.commit e).params = s.params := rfl
@[simp] theorem State.commit_status (s : State) (e : Effects s.params.xlen.bits) :
    (s.commit e).status = s.status := rfl
@[simp] theorem State.commit_mem (s : State) (e : Effects s.params.xlen.bits) : (s.commit e).mem = s.mem := rfl
@[simp] theorem State.commit_hart0 (s : State) (e : Effects s.params.xlen.bits) :
    (s.commit e).hart0 = s.hart0.commit e := rfl

@[simp] theorem State.released_params (s : State) : s.released.params = s.params := rfl
@[simp] theorem State.released_status (s : State) : s.released.status = .defunct := rfl
@[simp] theorem State.released_mem (s : State) : s.released.mem = { s.mem with cells := [] } := rfl
@[simp] theorem State.released_hart0 (s : State) : s.released.hart0 = Hart.reset s.params := rfl

@[simp] theorem State.withFetchWord_params (s : State) (k w : Nat) : (s.withFetchWord k w).params = s.params := rfl
@[simp] theorem State.withFetchWord_status (s : State) (k w : Nat) : (s.withFetchWord k w).status = .live := rfl
@[simp] theorem State.withFetchWord_hart0 (s : State) (k w : Nat) : (s.withFetchWord k w).hart0 = s.hart0 := rfl

end Sys2Proof.Machine
end

