-- ==== Sys2Proof/Laws/Memory.lean ====
section
/-! SUPPORT. Memory: read after write, the two ports, and the canonical form that every operation keeps
(spec/20_memory.md). -/

namespace Sys2Proof.Machine

/-- Read after write of one byte. -/
theorem Memory.readByte_writeByte (m : Memory) (a b : Nat) (v : Byte) (h : m.wf) :
    (m.writeByte a v).readByte b = if b = a then v else m.readByte b :=
  sparseGet_sparseSet 0 m.cells a b v h.1.1

/-- A byte write inside the array keeps the canonical form. -/
theorem Memory.writeByte_wf (m : Memory) (a : Nat) (v : Byte) (h : m.wf) (ha : a < m.capacity) : (m.writeByte a v).wf := by
  refine ⟨sparseSet_wf 0 m.cells a v h.1, fun c hc => ?_⟩
  rcases mem_sparseSet 0 m.cells a v c hc with ⟨rfl, -⟩ | hc
  · exact ha
  · exact h.2 c hc

@[simp] theorem Memory.storeBytes_capacity (m : Memory) (a : Nat) (bytes : List Byte) :
    (m.storeBytes a bytes).capacity = m.capacity := by
  induction bytes generalizing m a with
  | nil => rfl
  | cons b bs ih => exact ih (m.writeByte a b) (a + 1)

/-- Storing bytes inside the array keeps the canonical form. -/
theorem Memory.storeBytes_wf (m : Memory) (a : Nat) (bytes : List Byte) (h : m.wf) (hin : m.InBounds a bytes.length) :
    (m.storeBytes a bytes).wf := by
  induction bytes generalizing m a with
  | nil => exact h
  | cons b bs ih =>
    have hlen : a + (bs.length + 1) ≤ m.capacity := hin
    exact ih _ _ (m.writeByte_wf a b h (by omega)) (by show a + 1 + bs.length ≤ m.capacity; omega)

/-- What a byte reads as after storing: the stored byte, or what it was. -/
theorem Memory.readByte_storeBytes (m : Memory) (a : Nat) (bytes : List Byte) (h : m.wf) (hin : m.InBounds a bytes.length)
    (b : Nat) :
    (m.storeBytes a bytes).readByte b = if a ≤ b then bytes.getD (b - a) (m.readByte b) else m.readByte b := by
  induction bytes generalizing m a with
  | nil => simp [Memory.storeBytes]
  | cons v bs ih =>
    have hlen : a + (bs.length + 1) ≤ m.capacity := hin
    have hw := m.writeByte_wf a v h (by omega)
    have hread := m.readByte_writeByte a b v h
    rw [Memory.storeBytes, ih _ _ hw (by show a + 1 + bs.length ≤ m.capacity; omega), hread]
    by_cases hlt : b < a
    · have h1 : ¬ a + 1 ≤ b := by omega
      have h2 : ¬ a ≤ b := by omega
      have h3 : ¬ b = a := by omega
      simp only [h1, h2, h3, if_false]
    · by_cases hb : b = a
      · subst hb
        simp
      · have h1 : a + 1 ≤ b := by omega
        have h2 : a ≤ b := by omega
        obtain ⟨k, hk⟩ : ∃ k, b - a = k + 1 := ⟨b - a - 1, by omega⟩
        have hk' : b - (a + 1) = k := by omega
        simp only [h1, h2, hb, if_true, if_false, hk, hk', List.getD_cons_succ]

/-- MemWrite succeeds exactly in bounds, and then stores. -/
theorem Memory.write_eq_some (m m' : Memory) (a : Nat) (bytes : List Byte) :
    m.write a bytes = some m' ↔ m.InBounds a bytes.length ∧ m' = m.storeBytes a bytes := by
  unfold Memory.write
  split_ifs with h
  · simp [h, eq_comm]
  · simp [h]

/-- MemWrite keeps the canonical form. -/
theorem Memory.write_wf (m m' : Memory) (a : Nat) (bytes : List Byte) (h : m.wf) (hw : m.write a bytes = some m') :
    m'.wf := by
  obtain ⟨hin, rfl⟩ := (m.write_eq_some m' a bytes).mp hw
  exact m.storeBytes_wf a bytes h hin

/-- Fresh storage is in canonical form. -/
theorem Memory.empty_wf (capacity : Nat) : (Memory.mk capacity []).wf := by
  refine ⟨⟨List.Pairwise.nil, ?_⟩, ?_⟩ <;> simp

/-- Applying descriptors keeps the canonical form and CAPACITY, also when it stops early. -/
theorem applyDescriptors_wf (m : Memory) (content : List Descriptor) (h : m.wf) :
    (applyDescriptors m content).1.wf ∧ (applyDescriptors m content).1.capacity = m.capacity := by
  induction content generalizing m with
  | nil => exact ⟨h, rfl⟩
  | cons d ds ih =>
    simp only [applyDescriptors]
    cases hw : m.write d.offset d.bytes with
    | none => exact ⟨h, rfl⟩
    | some m' =>
      obtain ⟨h1, h2⟩ := ih m' (m.write_wf m' _ _ h hw)
      obtain ⟨-, rfl⟩ := (m.write_eq_some m' _ _).mp hw
      exact ⟨h1, by rw [h2]; simp⟩

/-- Rounding up never gives less than what was asked for (20_memory.md R40: "at least the requested capacity"). -/
theorem le_roundUpToPage (pageSize req : Nat) (hp : 0 < pageSize) : req ≤ roundUpToPage pageSize req := by
  have h1 := Nat.div_add_mod (req + pageSize - 1) pageSize
  have h2 := Nat.mod_lt (req + pageSize - 1) hp
  unfold roundUpToPage
  omega

/-- Growing memory keeps the canonical form (PAGE_SIZE is never 0 in a legal machine). -/
theorem Memory.withRoom_wf (m : Memory) (pageSize k : Nat) (h : m.wf) (hp : 0 < pageSize) : (m.withRoom pageSize k).wf := by
  refine ⟨h.1, fun c hc => ?_⟩
  have hlt : c.1 < m.capacity := h.2 c hc
  have hk := le_roundUpToPage pageSize k hp
  show c.1 < if k ≤ m.capacity then m.capacity else roundUpToPage pageSize k
  split_ifs <;> omega

/-- The fetch answers a word exactly when the four bytes are in bounds, and then it is those bytes, little-endian. -/
theorem State.fetch_eq (s : State) :
    s.fetch = if s.mem.InBounds s.hart0.pc.toNat 4 then
      some (wordOfBytes (s.mem.readByte s.hart0.pc.toNat) (s.mem.readByte (s.hart0.pc.toNat + 1))
        (s.mem.readByte (s.hart0.pc.toNat + 2)) (s.mem.readByte (s.hart0.pc.toNat + 3)))
    else none := by
  unfold State.fetch Memory.read
  split_ifs with h
  · rfl
  · rfl

/-- A word's bytes, put together again, are the word (20_memory.md R46). -/
theorem wordOfBytes_bytesOfWord (w : InstrWord) :
    wordOfBytes (w.extractLsb' 0 8) (w.extractLsb' 8 8) (w.extractLsb' 16 8) (w.extractLsb' 24 8) = w := by
  apply BitVec.eq_of_getLsbD_eq
  intro k hk
  simp only [wordOfBytes, BitVec.getLsbD_append, BitVec.getLsbD_extractLsb']
  split_ifs with h1 h2 h3
  · simp [h1]
  · have : 8 + (k - 8) = k := by omega
    simp [h2, this]
  · have : 16 + (k - 8 - 8) = k := by omega
    simp [h3, this]
  · have h4 : k - 8 - 8 - 8 < 8 := by omega
    have : 24 + (k - 8 - 8 - 8) = k := by omega
    simp [h4, this]

/-- What the host's `withFetchWord` stores is what the next step fetches. -/
theorem State.fetch_withFetchWord (s : State) (w : InstrWord) (h : s.mem.wf) (hp : 0 < s.params.pageSize) :
    (s.withFetchWord 32 w.toNat).fetch = some w := by
  have hw : BitVec.ofNat 32 (w.toNat % 2 ^ 32) = w := by
    rw [Nat.mod_eq_of_lt w.isLt]; simp
  have hwf := s.mem.withRoom_wf s.params.pageSize (s.hart0.pc.toNat + 4) h hp
  have hroom : s.hart0.pc.toNat + 4 ≤ (s.mem.withRoom s.params.pageSize (s.hart0.pc.toNat + 4)).capacity := by
    have := le_roundUpToPage s.params.pageSize (s.hart0.pc.toNat + 4) hp
    show _ ≤ ite _ _ _
    split_ifs <;> assumption
  have hread := fun b => (s.mem.withRoom s.params.pageSize (s.hart0.pc.toNat + 4)).readByte_storeBytes s.hart0.pc.toNat
    (bytesOfWord w) hwf (by exact hroom) b
  have hmem : (s.withFetchWord 32 w.toNat).mem =
      (s.mem.withRoom s.params.pageSize (s.hart0.pc.toNat + 4)).storeBytes s.hart0.pc.toNat (bytesOfWord w) := by
    simp only [State.withFetchWord, hw]
  rw [State.fetch_eq, if_pos (by rw [hmem]; simpa using hroom), State.withFetchWord_hart0, hmem, hread, hread, hread, hread]
  simpa [bytesOfWord] using wordOfBytes_bytesOfWord w

theorem State.reset_mem_wf : State.reset.mem.wf := Memory.empty_wf 4096

end Sys2Proof.Machine
end

