-- ==== Sys2Proof/Laws/Lifecycle.lean ====
section
/-! SUPPORT. What it takes for the host's operations to succeed, and what they then answer (spec/70_reset_and_hazards.md). -/

namespace Sys2Proof.Machine

/-- Descriptor application never changes CAPACITY, with or without an error (20_memory.md R48). -/
@[simp] theorem applyDescriptors_capacity (m : Memory) (content : List Descriptor) :
    (applyDescriptors m content).1.capacity = m.capacity := by
  induction content generalizing m with
  | nil => rfl
  | cons d ds ih =>
    unfold applyDescriptors
    split
    · rename_i m' hw
      obtain ⟨-, rfl⟩ := (m.write_eq_some m' _ _).1 hw
      rw [ih, Memory.storeBytes_capacity]
    · rfl

/-- Fresh storage is made exactly when the allocation succeeds and every descriptor applies (R165). -/
theorem freshMemory_eq_ok (alloc : Allocation) (capacity : Nat) (content : List Descriptor) (m : Memory) :
    freshMemory alloc capacity content = .ok m ↔
      alloc.succeeds = true ∧ applyDescriptors { capacity := capacity, cells := [] } content = (m, none) := by
  unfold freshMemory
  cases alloc.succeeds with
  | false => simp
  | true => rcases applyDescriptors { capacity := capacity, cells := [] } content with ⟨m', _ | e⟩ <;> simp

/-- create succeeds exactly when each check of R180 passes, with fresh storage and a reset hart. -/
theorem create_eq_ok (p : Params) (alloc : Allocation) (req : Nat) (content : List Descriptor) (count : Nat) (s : State) :
    create p alloc req content count = .ok s ↔
      count = 1 ∧ req ≠ 0 ∧ roundUpToPage p.pageSize req ≤ alloc.addressable ∧
        ∃ m, freshMemory alloc (roundUpToPage p.pageSize req) content = .ok m ∧
          s = { params := p, status := .live, mem := m, hart0 := Hart.reset p } := by
  unfold create
  by_cases h0 : count = 0
  · simp [h0]
  by_cases h1 : count = 1
  · by_cases hc : req = 0 ∨ alloc.addressable < roundUpToPage p.pageSize req
    · simp only [h1, hc]
      simp
      omega
    · have hr : req ≠ 0 ∧ roundUpToPage p.pageSize req ≤ alloc.addressable := by omega
      simp only [h1, hc]
      rcases freshMemory alloc (roundUpToPage p.pageSize req) content with e | m <;> simp [hr, eq_comm]
  · simp [h0, h1]

/-- reset succeeds exactly on a live machine that gets its fresh storage (R184). -/
theorem hostReset_eq_ok (alloc : Allocation) (content : List Descriptor) (s t : State) :
    hostReset alloc content s = .ok t ↔
      s.status = .live ∧ ∃ m, freshMemory alloc s.mem.capacity content = .ok m ∧
        t = { s with mem := m, hart0 := Hart.reset s.params } := by
  unfold hostReset
  cases hs : s.status with
  | defunct => simp
  | live => rcases freshMemory alloc s.mem.capacity content with e | m <;> simp [eq_comm]

/-- A reset that fails leaves the released machine (R186). -/
theorem hostReset_eq_failed (alloc : Allocation) (content : List Descriptor) (s t : State) (e : ConstructionError) :
    hostReset alloc content s = .failed e t ↔
      s.status = .live ∧ freshMemory alloc s.mem.capacity content = .error e ∧ t = s.released := by
  unfold hostReset
  cases hs : s.status with
  | defunct => simp
  | live => rcases freshMemory alloc s.mem.capacity content with e' | m <;> simp [eq_comm]

end Sys2Proof.Machine
end

