-- ==== Sys2Proof/Laws/Ops.lean ====
section
/-! SUPPORT. Registers, CSRs, and what COMMIT can do (spec/10_state.md R22, R28; spec/40_engine.md R93). -/

namespace Sys2Proof.Machine

variable {n : Nat}

@[simp] theorem Hart.readX_zero (h : Hart n) : h.readX 0 = 0 := rfl

/-- A read after a write: `x[0]` is 0, the written register holds the value, every other is as before (R22). -/
theorem Hart.readX_writeX (h : Hart n) (r q : RegIdx) (v : BitVec n) :
    (h.writeX r v).readX q = if q = 0 then 0 else if q = r then v else h.readX q := by
  unfold Hart.writeX Hart.readX
  by_cases hr : r = 0
  · subst hr
    by_cases hq : q = 0 <;> simp [hq]
  · by_cases hq : q = 0
    · simp [hq]
    · by_cases hqr : q = r
      · subst hqr
        simp [hq]
      · have : r.val ≠ q.val := fun e => hqr (Fin.ext e.symm)
        simp [hr, hq, hqr, this]

@[simp] theorem Hart.writeX_id (h : Hart n) (r : RegIdx) (v : BitVec n) : (h.writeX r v).id = h.id := by
  unfold Hart.writeX; split <;> rfl
@[simp] theorem Hart.writeX_pc (h : Hart n) (r : RegIdx) (v : BitVec n) : (h.writeX r v).pc = h.pc := by
  unfold Hart.writeX; split <;> rfl
@[simp] theorem Hart.writeX_csr (h : Hart n) (r : RegIdx) (v : BitVec n) : (h.writeX r v).csr = h.csr := by
  unfold Hart.writeX; split <;> rfl

/-- A register write never reaches the storage of `x[0]`. -/
@[simp] theorem Hart.writeX_x0 (h : Hart n) (r : RegIdx) (v : BitVec n) : (h.writeX r v).x[0] = h.x[0] := by
  unfold Hart.writeX
  split_ifs with hr
  · rfl
  · have : r.val ≠ 0 := fun e => hr (Fin.ext e)
    simp [this]

@[simp] theorem Hart.readX_writeCsr (h : Hart n) (a : CsrAddr) (v : BitVec n) (r : RegIdx) :
    (h.writeCsr a v).readX r = h.readX r := rfl
@[simp] theorem Hart.readX_setPc (h : Hart n) (v : BitVec n) (r : RegIdx) : (h.setPc v).readX r = h.readX r := rfl
@[simp] theorem Hart.readCsr_setPc (h : Hart n) (v : BitVec n) (a : CsrAddr) : (h.setPc v).readCsr a = h.readCsr a := rfl
@[simp] theorem Hart.readCsr_writeX (h : Hart n) (r : RegIdx) (v : BitVec n) (a : CsrAddr) :
    (h.writeX r v).readCsr a = h.readCsr a := by
  unfold Hart.readCsr; rw [Hart.writeX_csr]

/-- A CSR read after a CSR write (R28). -/
theorem Hart.readCsr_writeCsr (h : Hart n) (a b : CsrAddr) (v : BitVec n) (hwf : SparseWF 0 h.csr) :
    (h.writeCsr a v).readCsr b = if b = a then v else h.readCsr b := by
  have := sparseGet_sparseSet 0 h.csr a.val b.val v hwf.1
  simpa [Hart.readCsr, Hart.writeCsr, Fin.val_inj] using this

@[simp] theorem Hart.commit_id (h : Hart n) (e : Effects n) : (h.commit e).id = h.id := by
  rcases e with ⟨_ | ⟨r, v⟩, _ | ⟨a, u⟩, t⟩ <;> simp [Hart.commit, Hart.commitRd, Hart.commitCsr]

@[simp] theorem Hart.commit_pc (h : Hart n) (e : Effects n) : (h.commit e).pc = nextPc h.pc e.redirect := rfl

@[simp] theorem Hart.commit_x0 (h : Hart n) (e : Effects n) : (h.commit e).x[0] = h.x[0] := by
  rcases e with ⟨_ | ⟨r, v⟩, _ | ⟨a, u⟩, t⟩ <;> simp [Hart.commit, Hart.commitRd, Hart.commitCsr]

/-- The registers after COMMIT. -/
theorem Hart.readX_commit (h : Hart n) (e : Effects n) (q : RegIdx) :
    (h.commit e).readX q = (h.commitRd e.rdWrite).readX q := by
  rcases e with ⟨w, _ | ⟨a, u⟩, t⟩ <;> rfl

/-- The CSR storage after COMMIT. -/
theorem Hart.commit_csr (h : Hart n) (e : Effects n) : (h.commit e).csr = (h.commitCsr e.csrWrite).csr := by
  rcases e with ⟨_ | ⟨r, v⟩, _ | ⟨a, u⟩, t⟩ <;> simp [Hart.commit, Hart.commitRd, Hart.commitCsr]

/-- COMMIT keeps the CSRs' canonical form. -/
theorem Hart.commit_csr_wf (h : Hart n) (e : Effects n) (hwf : SparseWF 0 h.csr) : SparseWF 0 (h.commit e).csr := by
  rw [Hart.commit_csr]
  rcases e with ⟨w, _ | ⟨a, u⟩, t⟩
  · exact hwf
  · exact sparseSet_wf 0 h.csr a.val u hwf

/-- The three CSR instructions' one operation, both ways it ends (44_csr.md R140). -/
theorem csrAccess_cases (i : Instr) (rd : RegIdx) (a : CsrAddr) (s : State) (v : BitVec s.params.xlen.bits) :
    (csrPresent s.params a = true ∧
      csrAccess i rd a s v = .next (s.commit { rdWrite := some (rd, s.hart0.readCsr a), csrWrite := some (a, v) })) ∨
    (csrPresent s.params a = false ∧
      csrAccess i rd a s v = .fault (.illegalInstruction s.hart0.pc.toNat (encode i))) := by
  unfold csrAccess complete raise
  cases h : csrPresent s.params a <;> simp

/-- Everything an instruction can do: it completes by one COMMIT whose register write is to its `rd` and whose CSR write is
to its CSR, or it fails because that CSR is not present. -/
theorem exec_cases (i : Instr) (s : State) :
    (∃ e : Effects s.params.xlen.bits, exec i s = .next (s.commit e) ∧ e.rdWrite.map Prod.fst = i.rd? ∧
      e.csrWrite.map Prod.fst = i.csr? ∧ ∀ a, i.csr? = some a → csrPresent s.params a = true) ∨
    (∃ a, i.csr? = some a ∧ csrPresent s.params a = false ∧
      exec i s = .fault (.illegalInstruction s.hart0.pc.toNat (encode i))) := by
  cases i with
  | auipc rd imm => exact .inl ⟨_, rfl, rfl, rfl, by simp [Instr.csr?]⟩
  | jal rd imm => exact .inl ⟨_, rfl, rfl, rfl, by simp [Instr.csr?]⟩
  | addi rd rs1 imm => exact .inl ⟨_, rfl, rfl, rfl, by simp [Instr.csr?]⟩
  | bne rs1 rs2 imm => exact .inl ⟨_, rfl, rfl, rfl, by simp [Instr.csr?]⟩
  | csrrw rd a rs1 =>
    rcases csrAccess_cases (.csrrw rd a rs1) rd a s (s.hart0.readX rs1) with ⟨hp, he⟩ | ⟨hp, he⟩
    · exact .inl ⟨_, he, rfl, rfl, by simpa [Instr.csr?] using hp⟩
    · exact .inr ⟨a, rfl, hp, he⟩
  | csrrs rd a rs1 =>
    rcases csrAccess_cases (.csrrs rd a rs1) rd a s (s.hart0.readCsr a ||| s.hart0.readX rs1) with ⟨hp, he⟩ | ⟨hp, he⟩
    · exact .inl ⟨_, he, rfl, rfl, by simpa [Instr.csr?] using hp⟩
    · exact .inr ⟨a, rfl, hp, he⟩
  | csrrwi rd a u =>
    rcases csrAccess_cases (.csrrwi rd a u) rd a s (uimmValue _ u) with ⟨hp, he⟩ | ⟨hp, he⟩
    · exact .inl ⟨_, he, rfl, rfl, by simpa [Instr.csr?] using hp⟩
    · exact .inr ⟨a, rfl, hp, he⟩

/-- Everything a step can do, phase by phase (40_engine.md R91). -/
theorem step_cases (s : State) :
    (s.status = .defunct ∧ step s = .refused .defunctMachine) ∨
    (s.status = .live ∧ s.fetch = none ∧ step s = .fault (.fetchOutOfBounds s.hart0.pc.toNat)) ∨
    (∃ w r, s.status = .live ∧ s.fetch = some w ∧ decode w = .error r ∧
      step s = .fault (.illegalInstruction s.hart0.pc.toNat w)) ∨
    (∃ w i, s.status = .live ∧ s.fetch = some w ∧ decode w = .ok i ∧ step s = exec i s) := by
  unfold step raise
  cases hs : s.status with
  | defunct => simp
  | live =>
    cases hf : s.fetch with
    | none => simp
    | some w =>
      cases hd : decode w with
      | error r => exact .inr (.inr (.inl ⟨w, r, rfl, rfl, hd, by simp [hd]⟩))
      | ok i => exact .inr (.inr (.inr ⟨w, i, rfl, rfl, hd, by simp [hd]⟩))

end Sys2Proof.Machine
end

