-- ==== Sys2Proof/Laws/PerInstr.lean ====
section
/-! SUPPORT. The statements made of every instruction as syntax, one lemma per constructor: the family EncodedClass says that
an instruction's word classifies as that instruction (spec/30_encoding.md R75). -/

namespace Sys2Proof

/-! ## Which bits of an encoded word the classifier reads -/

theorem fieldOpcode_encodeUpper (imm : BitVec 20) (rd : RegIdx) (opcode : BitVec 7) :
    fieldOpcode (encodeUpper imm rd opcode) = opcode := by
  apply BitVec.eq_of_getLsbD_eq
  intro k hk
  simp only [fieldOpcode, encodeUpper, BitVec.getLsbD_extractLsb', BitVec.getLsbD_append, hk, decide_true, Bool.true_and,
    Nat.zero_add, if_true]

theorem fieldOpcode_encodeI (high : BitVec 12) (rs1 : BitVec 5) (funct3 : BitVec 3) (rd : RegIdx) (opcode : BitVec 7) :
    fieldOpcode (encodeI high rs1 funct3 rd opcode) = opcode := by
  apply BitVec.eq_of_getLsbD_eq
  intro k hk
  simp only [fieldOpcode, encodeI, BitVec.getLsbD_extractLsb', BitVec.getLsbD_append, hk, decide_true, Bool.true_and,
    Nat.zero_add, if_true]

theorem fieldOpcode_encodeB (imm : Int) (rs1 rs2 : RegIdx) (funct3 : BitVec 3) (opcode : BitVec 7) :
    fieldOpcode (encodeB imm rs1 rs2 funct3 opcode) = opcode := by
  apply BitVec.eq_of_getLsbD_eq
  intro k hk
  simp only [fieldOpcode, encodeB, BitVec.getLsbD_extractLsb', BitVec.getLsbD_append, hk, decide_true, Bool.true_and,
    Nat.zero_add, if_true]

/-- Bits 14:12 lie above the twelve bits of rd and opcode, in the next three. -/
theorem fieldFunct3_encodeI (high : BitVec 12) (rs1 : BitVec 5) (funct3 : BitVec 3) (rd : RegIdx) (opcode : BitVec 7) :
    fieldFunct3 (encodeI high rs1 funct3 rd opcode) = funct3 := by
  apply BitVec.eq_of_getLsbD_eq
  intro k hk
  have h1 : ¬ 12 + k < 7 := by omega
  have h2 : ¬ 12 + k - 7 < 5 := by omega
  have h3 : 12 + k - 7 - 5 = k := by omega
  simp only [fieldFunct3, encodeI, BitVec.getLsbD_extractLsb', BitVec.getLsbD_append, h1, h2, h3, hk, decide_true,
    Bool.true_and, if_true, if_false]

theorem fieldFunct3_encodeB (imm : Int) (rs1 rs2 : RegIdx) (funct3 : BitVec 3) (opcode : BitVec 7) :
    fieldFunct3 (encodeB imm rs1 rs2 funct3 opcode) = funct3 := by
  apply BitVec.eq_of_getLsbD_eq
  intro k hk
  have h1 : ¬ 12 + k < 7 := by omega
  have h2 : ¬ 12 + k - 7 < 5 := by omega
  have h3 : 12 + k - 7 - 5 = k := by omega
  simp only [fieldFunct3, encodeB, BitVec.getLsbD_extractLsb', BitVec.getLsbD_append, h1, h2, h3, hk, decide_true,
    Bool.true_and, if_true, if_false]

end Sys2Proof

namespace Sys2Proof.Laws.EncodedClass

/-- The word of an instruction classifies as that instruction (30_encoding.md R75). -/
def Statement (i : Instr) : Prop := classify (encode i) = i.itype

theorem auipc (rd : RegIdx) (imm : Int) : Statement (.auipc rd imm) := by
  simp only [Statement, classify, encode, fieldOpcode_encodeUpper, Instr.itype]

theorem jal (rd : RegIdx) (imm : Int) : Statement (.jal rd imm) := by
  simp only [Statement, classify, encode, fieldOpcode_encodeUpper, Instr.itype]

theorem addi (rd rs1 : RegIdx) (imm : Int) : Statement (.addi rd rs1 imm) := by
  simp only [Statement, classify, encode, fieldOpcode_encodeI, fieldFunct3_encodeI, Instr.itype]

theorem bne (rs1 rs2 : RegIdx) (imm : Int) : Statement (.bne rs1 rs2 imm) := by
  simp only [Statement, classify, encode, fieldOpcode_encodeB, fieldFunct3_encodeB, Instr.itype]

theorem csrrw (rd : RegIdx) (csr : CsrAddr) (rs1 : RegIdx) : Statement (.csrrw rd csr rs1) := by
  simp only [Statement, classify, encode, fieldOpcode_encodeI, fieldFunct3_encodeI, Instr.itype]

theorem csrrs (rd : RegIdx) (csr : CsrAddr) (rs1 : RegIdx) : Statement (.csrrs rd csr rs1) := by
  simp only [Statement, classify, encode, fieldOpcode_encodeI, fieldFunct3_encodeI, Instr.itype]

theorem csrrwi (rd : RegIdx) (csr : CsrAddr) (uimm : Uimm) : Statement (.csrrwi rd csr uimm) := by
  simp only [Statement, classify, encode, fieldOpcode_encodeI, fieldFunct3_encodeI, Instr.itype]

end Sys2Proof.Laws.EncodedClass
end

