-- ==== Sys2Proof/Tests/Slice0.lean ====
section
/-! SUPPORT. Tests of single steps and of decoding on values from spec/95_test_vectors.md, the well-formedness smoke, and one
witness for the hypotheses of each obligation. -/

namespace Sys2Proof.Tests

open Sys2Proof Sys2Proof.Machine

/-! ## Well-formedness refuses each ill-formed immediate (30_encoding.md R64 to R67) -/

theorem test_wellFormed_refuses_auipc_low_bits : wellFormed (.auipc 1 4095) = false := by decide
theorem test_wellFormed_refuses_auipc_above : wellFormed (.auipc 1 (2 ^ 31)) = false := by decide
theorem test_wellFormed_refuses_auipc_below : wellFormed (.auipc 1 (-2 ^ 31 - 4096)) = false := by decide
theorem test_wellFormed_refuses_jal_odd : wellFormed (.jal 1 3) = false := by decide
theorem test_wellFormed_refuses_jal_above : wellFormed (.jal 1 (2 ^ 20)) = false := by decide
theorem test_wellFormed_refuses_jal_below : wellFormed (.jal 1 (-2 ^ 20 - 2)) = false := by decide
theorem test_wellFormed_refuses_addi_above : wellFormed (.addi 1 1 2048) = false := by decide
theorem test_wellFormed_refuses_addi_below : wellFormed (.addi 1 1 (-2049)) = false := by decide
theorem test_wellFormed_refuses_bne_odd : wellFormed (.bne 1 1 1) = false := by decide
theorem test_wellFormed_refuses_bne_above : wellFormed (.bne 1 1 4096) = false := by decide
theorem test_wellFormed_refuses_bne_below : wellFormed (.bne 1 1 (-4098)) = false := by decide

/-! ## Decoding: one word of each instruction written out field by field from R63 and R77, and its encoding -/

/-- `auipc x5, 0x12345`: imm[31:12], rd, opcode. -/
theorem test_decode_auipc : decode (0b00010010001101000101#20 ++ 0b00101#5 ++ 0b0010111#7) = .ok (.auipc 5 0x12345000) := by
  decide
/-- `jal x0, 2048` (R66: bit 11 stands in w[20]): imm[20], imm[10:1], imm[11], imm[19:12], rd, opcode. -/
theorem test_decode_jal :
    decode (0b0#1 ++ 0b0000000000#10 ++ 0b1#1 ++ 0b00000000#8 ++ 0b00000#5 ++ 0b1101111#7) = .ok (.jal 0 2048) := by decide
/-- `addi x1, x0, -2048`: imm[11:0], rs1, funct3, rd, opcode. -/
theorem test_decode_addi :
    decode (0b100000000000#12 ++ 0b00000#5 ++ 0b000#3 ++ 0b00001#5 ++ 0b0010011#7) = .ok (.addi 1 0 (-2048)) := by decide
/-- `bne x1, x0, 2048` (R67: bit 11 stands in w[7]): imm[12], imm[10:5], rs2, rs1, funct3, imm[4:1], imm[11], opcode. -/
theorem test_decode_bne :
    decode (0b0#1 ++ 0b000000#6 ++ 0b00000#5 ++ 0b00001#5 ++ 0b001#3 ++ 0b0000#4 ++ 0b1#1 ++ 0b1100011#7) =
      .ok (.bne 1 0 2048) := by decide
/-- `csrrw x2, 0x340, x1`: csr, rs1, funct3, rd, opcode. -/
theorem test_decode_csrrw :
    decode (0b001101000000#12 ++ 0b00001#5 ++ 0b001#3 ++ 0b00010#5 ++ 0b1110011#7) = .ok (.csrrw 2 0x340 1) := by decide
/-- `csrrs x0, 0xFFF, x1`: the csr field is unsigned. -/
theorem test_decode_csrrs :
    decode (0b111111111111#12 ++ 0b00001#5 ++ 0b010#3 ++ 0b00000#5 ++ 0b1110011#7) = .ok (.csrrs 0 0xFFF 1) := by decide
/-- `csrrwi x4, 0x340, 31`: csr, uimm, funct3, rd, opcode. -/
theorem test_decode_csrrwi :
    decode (0b001101000000#12 ++ 0b11111#5 ++ 0b101#3 ++ 0b00100#5 ++ 0b1110011#7) = .ok (.csrrwi 4 0x340 31) := by decide

/-- Placement vectors of 95_test_vectors.md section 2.1. -/
theorem test_encode_jump_placement :
    [encode (.jal 0 2), encode (.jal 0 (-2)), encode (.jal 0 2046), encode (.jal 0 (-2048)), encode (.jal 0 1044480)] =
      [0x0020006F#32, 0xFFFFF06F#32, 0x7FE0006F#32, 0x801FF06F#32, 0x000FF06F#32] := by decide
theorem test_encode_branch_placement :
    [encode (.bne 1 0 30), encode (.bne 1 0 2046), encode (.bne 1 0 (-2048)), encode (.bne 1 0 (-4096))] =
      [0x00009F63#32, 0x7E009F63#32, 0x800090E3#32, 0x80009063#32] := by decide

/-- The decoder's table of 95_test_vectors.md section 2.1, the row of 0xDEADBEEF. -/
theorem test_decodeFields_deadbeef : decodeFields 0xDEADBEEF#32 =
    { opcode := 0x6F, rd := 29, funct3 := 3, rs1 := 27, rs2 := 10, csr := 0xDEA, immU := -559042560, immI := -534,
      immJ := -150038, immB := -516, uimm := 27 } := by decide

/-- Words of 95_test_vectors.md section 2.2 that this hardware does not have. -/
theorem test_classify_near_misses :
    [0x00109093#32, 0x00000063#32, 0x34003073#32, 0x34006073#32, 0x00004073#32, 0x00000073#32, 0x00100073#32, 0x30200073#32,
      0x000010B7#32, 0x00008067#32, 0x0FF0000F#32, 0x00002083#32, 0x00000001#32, 0x00000011#32].map classify =
      List.replicate 14 .unimplemented := by decide
/-- The seven with every other bit 1 (section 2.2). -/
theorem test_classify_ignores_other_bits :
    [0xFFFFF017#32, 0xFFFFF0EF#32, 0xFFFF8F93#32, 0xFFFF9FE3#32, 0xFFFF9FF3#32, 0xFFFFAFF3#32, 0xFFFFDFF3#32].map classify =
      [.auipc, .jal, .addi, .bne, .csrrw, .csrrs, .csrrwi] := by decide

theorem test_decodeBytes_truncated : decodeBytes [0x13#8, 0x05#8] = .error (.truncated 2) := by decide
theorem test_decodeTableWord_addi : decodeTableWord 32 0x00A00513 = some (.addi 10 0 10) := by decide

/-! ## Steps -/

/-- A live machine at R7's defaults with a word at its pc and some registers and CSRs set. -/
def machine (x : Xlen) (pc word : Nat) (regs csrs : List (Nat × Nat)) : State :=
  let h : Hart x.bits := { Hart.reset (Params.atDefaults x) with pc := BitVec.ofNat _ pc }
  let h := regs.foldl (fun h r => h.writeX (Fin.ofNat 32 r.1) (BitVec.ofNat _ r.2)) h
  let h := csrs.foldl (fun h c => h.writeCsr (Fin.ofNat 4096 c.1) (BitVec.ofNat _ c.2)) h
  State.withFetchWord
    { params := Params.atDefaults x, status := .live, mem := { capacity := 4096, cells := [] }, hart0 := h } 32 word

/-- The next state, if the step completes. -/
def nextOf (s : State) : Option State :=
  match step s with
  | .next t => some t
  | .fault _ => none
  | .refused _ => none

/-- The failure, if the step fails. -/
def faultOf (s : State) : Option Fault :=
  match step s with
  | .next _ => none
  | .fault f => some f
  | .refused _ => none

/-- The pc, a register and a CSR after a step. -/
def seen (s : State) (r : RegIdx) (a : CsrAddr) : Option (Nat × Nat × Nat) :=
  (nextOf s).map fun t => (t.hart0.pc.toNat, (t.hart0.readX r).toNat, (t.hart0.readCsr a).toNat)

theorem step_of_nextOf {s t : State} (h : nextOf s = some t) : step s = .next t := by
  unfold nextOf at h
  split at h
  · next h' => rw [h', Option.some.inj h]
  · exact absurd h (by simp)
  · exact absurd h (by simp)

/-- `auipc x1, 0x80000` at XLEN 64: the immediate is sign-extended from bit 31 (section 2.3). -/
theorem test_auipc_sign_extends : seen (machine .x64 0 0x80000097 [] []) 1 0 = some (4, 0xFFFFFFFF80000000, 0) := by decide
/-- `auipc x2, 1` at pc 0xFFFFF000, XLEN 32: the sum wraps (section 2.3). -/
theorem test_auipc_wraps : seen (machine .x32 0xFFFFF000 0x00001117 [(2, 7)] []) 2 0 = some (0xFFFFF004, 0, 0) := by decide
/-- `jal x1, 8` at pc 0xFFFFFFFC, XLEN 32: the link and the target wrap (section 2.4). -/
theorem test_jal_wraps : seen (machine .x32 0xFFFFFFFC 0x008000EF [(1, 7)] []) 1 0 = some (4, 0, 0) := by decide
/-- `jal x3, -0x100` at pc 0x200 (section 2.4). -/
theorem test_jal_backwards : seen (machine .x64 0x200 0xF01FF1EF [] []) 3 0 = some (0x100, 0x204, 0) := by decide
/-- `addi x3, x3, 2047`: the source is the destination (section 2.5). -/
theorem test_addi_source_is_destination : seen (machine .x64 0 0x7FF18193 [(3, 7)] []) 3 0 = some (4, 0x806, 0) := by decide
/-- `addi x2, x1, 1` with x1 all ones, XLEN 32: wraps (section 2.5). -/
theorem test_addi_wraps : seen (machine .x32 0 0x00108113 [(1, 0xFFFFFFFF), (2, 9)] []) 2 0 = some (4, 0, 0) := by decide
/-- `bne x1, x0, 8` with x1 = 0x100000000, XLEN 64: the full width is compared (section 2.6). -/
theorem test_bne_compares_all_bits : seen (machine .x64 0 0x00009463 [(1, 0x100000000)] []) 1 0 = some (8, 0x100000000, 0) := by
  decide
/-- `bne x1, x2, -8` at pc 0x10 with equal registers: the pc advances once (section 2.6, 90_conflicts.md C4). -/
theorem test_bne_falls_through : seen (machine .x64 0x10 0xFE209CE3 [(1, 1), (2, 1)] []) 1 0 = some (0x14, 1, 0) := by decide
/-- `csrrw x1, 0x340, x1` swaps (section 2.7). -/
theorem test_csrrw_swaps : seen (machine .x64 0 0x340090F3 [(1, 5)] [(0x340, 9)]) 1 0x340 = some (4, 9, 5) := by decide
/-- `csrrs x3, 0x340, x1`: rd gets the value before the OR (section 2.7, S9). -/
theorem test_csrrs_reads_before_or : seen (machine .x64 0 0x3400A1F3 [(1, 0x0A)] [(0x340, 0x55)]) 3 0x340 = some (4, 0x55, 0x5F) :=
  by decide
/-- `csrrs x5, 0x340, x0`: a pure read (section 2.7). -/
theorem test_csrrs_pure_read : seen (machine .x32 0 0x340022F3 [] [(0x340, 0x1F)]) 5 0x340 = some (4, 0x1F, 0x1F) := by decide
/-- `csrrwi x4, 0x340, 31` with x31 set: the field is the immediate, not a register (section 2.7). -/
theorem test_csrrwi_reads_no_register :
    seen (machine .x64 0 0x340FD273 [(31, 77)] [(0x340, 0x5F)]) 4 0x340 = some (4, 0x5F, 0x1F) := by decide
/-- `csrrwi x4, 0x340, 0` clears the CSR (section 2.7). -/
theorem test_csrrwi_clears :
    seen (machine .x32 0 0x34005273 [] [(0x340, 0xFFFFFFFF)]) 4 0x340 = some (4, 0xFFFFFFFF, 0) := by decide

/-- The same machine with the CSR absent (section 2.7, last row). -/
def withoutCsr (s : State) (a : CsrAddr) : State :=
  { s with params := { s.params with csrAbsent := [a] } }

theorem test_csrrw_absent_csr_fails :
    faultOf (withoutCsr (machine .x64 0 0x34009173 [] []) 0x340) = some (.illegalInstruction 0 0x34009173#32) := by decide

/-- A fetch at pc 4092 succeeds and one at 4094 fails, CAPACITY 4096 (section 2.8). -/
theorem test_fetch_bounds :
    ({ machine .x64 0 0 [] [] with hart0 := { Hart.reset (Params.atDefaults .x64) with pc := 4092 } } : State).fetch = some 0#32 ∧
    faultOf { machine .x64 0 0 [] [] with hart0 := { Hart.reset (Params.atDefaults .x64) with pc := 4094 } } =
      some (.fetchOutOfBounds 0xFFE) := by decide

/-- From reset memory is zero, and the all-zero word is illegal (R78). -/
theorem test_reset_memory_is_illegal : faultOf State.reset = some (.illegalInstruction 0 0#32) := by decide
/-- Bytes `13 05 A0 00` at 0 fetch as 0x00A00513 (20_memory.md R46). -/
theorem test_fetch_little_endian :
    ({ State.reset with mem := State.reset.mem.storeBytes 0 [0x13, 0x05, 0xA0, 0x00] } : State).fetch = some 0x00A00513#32 := by
  decide

/-! ## Descriptors, create, reset, run (sections 2.8, 2.9) -/

/-- A host that allocates whatever is asked. -/
def generous : Allocation := { succeeds := true, addressable := 2 ^ 40 }

/-- "a later descriptor overwrites" (section 2.8). -/
theorem test_descriptor_overwrites :
    ((applyDescriptors { capacity := 4096, cells := [] } [⟨0, [1, 2, 3]⟩, ⟨1, [0xFF]⟩]).1).cells =
      [(0, 1), (1, 0xFF), (2, 3)] := by decide
/-- Application stops at the second, and the first stays applied (S10). -/
theorem test_descriptor_out_of_bounds :
    applyDescriptors { capacity := 4096, cells := [] } [⟨0, [1, 2, 3]⟩, ⟨4095, [0xAA, 0xBB]⟩] =
      ({ capacity := 4096, cells := [(0, 1), (1, 2), (2, 3)] }, some (.descriptorOutOfBounds 4095 2)) := by decide
/-- The hart count is checked before the capacity (D30). -/
theorem test_create_checks_hart_count_first :
    create (Params.atDefaults .x64) generous 0 [] 0 = .error .hartCountZero := by decide
/-- Capacity 4097 rounds up to 8192 (section 2.8). -/
theorem test_create_rounds_up :
    (create (Params.atDefaults .x64) generous 4097 [] 1).toOption.map (fun s => s.mem.capacity) = some 8192 := by decide
theorem test_run_limit_zero : run { Options.defaults with maxSteps := some 0 } 0 State.reset = .stepLimitReached 0 State.reset := by
  decide
theorem test_options_unrecognised :
    buildOptions Options.defaults [.trace true, .unrecognised "speed"] = .error { name := "speed" } := by decide

/-! ## Witnesses: for each obligation with hypotheses, concrete data that meets them -/

/-- `addi x3, x1, 1` at pc 8, x1 = 5, CSR 0x340 = 9. -/
def sample : State := machine .x64 8 0x00108193 [(1, 5)] [(0x340, 9)]

theorem sample_legal : sample.Legal :=
  ⟨by decide, by decide, by decide, by decide, by decide, by decide, by decide⟩

theorem sample_steps : ∃ t, step sample = .next t :=
  ⟨_, step_of_nextOf (Option.some_get (by decide : (nextOf sample).isSome = true)).symm⟩

theorem witness_DecodeInvertsEncode :
    ([.auipc 31 (-2 ^ 31), .auipc 0 (2 ^ 31 - 4096), .jal 1 (-2 ^ 20), .jal 0 (2 ^ 20 - 2), .addi 1 2 (-2048), .addi 0 31 2047,
      .bne 1 2 (-4096), .bne 31 0 4094, .csrrw 0 4095 31, .csrrs 31 0 0, .csrrwi 0 0 31] : List Instr).all wellFormed = true := by
  decide

theorem witness_EncodeInvertsDecode : ∃ i, decode 0xFE009CE3#32 = .ok i := ⟨.bne 1 0 (-8), by decide⟩

theorem witness_ClassifyReadsOpcodeAndFunct3 :
    fieldOpcode 0x30200073#32 = 0b1110011#7 ∧ fieldFunct3 0x30200073#32 = 0b000#3 ∧
    fieldOpcode 0x00000073#32 = fieldOpcode 0x30200073#32 ∧ fieldFunct3 0x00000073#32 = fieldFunct3 0x30200073#32 := by decide

theorem witness_OpcodeTableClassifies :
    opcodeTable.all (fun row => row.accepts (row.pattern ||| 0xFFFF0F80#32) || row.mask == 0x7F#32) = true ∧
    opcodeTable.all (fun row => row.accepts row.pattern) = true := by decide

theorem witness_PlacedImmediatesReadBack :
    (WellFormedU (-2 ^ 31) ∧ (0x80000017#32).extractLsb' 12 20 = (BitVec.ofInt 32 (-2 ^ 31)).extractLsb' 12 20) ∧
    (WellFormedI (-2048) ∧ (0x80000013#32).extractLsb' 20 12 = BitVec.ofInt 12 (-2048)) ∧
    (WellFormedJ (2 ^ 20 - 2) ∧ (0x7FFFF06F#32).extractLsb' 31 1 = (BitVec.ofInt 21 (2 ^ 20 - 2)).extractLsb' 20 1 ∧
      (0x7FFFF06F#32).extractLsb' 21 10 = (BitVec.ofInt 21 (2 ^ 20 - 2)).extractLsb' 1 10 ∧
      (0x7FFFF06F#32).extractLsb' 20 1 = (BitVec.ofInt 21 (2 ^ 20 - 2)).extractLsb' 11 1 ∧
      (0x7FFFF06F#32).extractLsb' 12 8 = (BitVec.ofInt 21 (2 ^ 20 - 2)).extractLsb' 12 8) ∧
    (WellFormedB 4094 ∧ (0x7E009FE3#32).extractLsb' 31 1 = (BitVec.ofInt 13 4094).extractLsb' 12 1 ∧
      (0x7E009FE3#32).extractLsb' 25 6 = (BitVec.ofInt 13 4094).extractLsb' 5 6 ∧
      (0x7E009FE3#32).extractLsb' 8 4 = (BitVec.ofInt 13 4094).extractLsb' 1 4 ∧
      (0x7E009FE3#32).extractLsb' 7 1 = (BitVec.ofInt 13 4094).extractLsb' 11 1) ∧
    (0x340FD273#32).extractLsb' 15 5 = BitVec.ofNat 5 (31 : Uimm).val := by decide

theorem witness_StepRunsTheDecodedInstruction :
    sample.status = .live ∧ sample.mem.InBounds sample.hart0.pc.toNat 4 ∧
    decodeBytes [sample.mem.readByte sample.hart0.pc.toNat, sample.mem.readByte (sample.hart0.pc.toNat + 1),
      sample.mem.readByte (sample.hart0.pc.toNat + 2), sample.mem.readByte (sample.hart0.pc.toNat + 3)] =
      .ok (.addi 3 1 1, []) := by decide

/-- The reset machine with another pc. -/
def resetAt (pc : Nat) : State := { State.reset with hart0 := { State.reset.hart0 with pc := BitVec.ofNat _ pc } }

theorem witness_FetchIsLittleEndianAndBounded :
    (resetAt 4092).hart0.pc.toNat + 4 ≤ (resetAt 4092).mem.capacity ∧
    (resetAt 4093).mem.capacity < (resetAt 4093).hart0.pc.toNat + 4 ∧ (resetAt 4093).status = .live := by decide

theorem witness_FetchOutOfBoundsExactly : faultOf (resetAt 4093) = some (.fetchOutOfBounds 4093) := by decide

theorem witness_IllegalInstructionExactly :
    faultOf (resetAt 4092) = some (.illegalInstruction 4092 0#32) ∧
    faultOf (withoutCsr (machine .x32 4 0x340FD273 [] []) 0x340) = some (.illegalInstruction 4 0x340FD273#32) := by decide

theorem witness_UnimplementedWordsFail :
    State.reset.status = .live ∧ State.reset.fetch = some 0#32 ∧ classify 0#32 = .unimplemented := by decide

theorem witness_StepsFailInTwoWaysOnly : sample.status = .live := by decide

theorem witness_StepCompletesExactly : sample.Completes := sample_steps

/-- Each word clause's mask is met by a word whose other bits are 1; AUIPC, JAL, ADDI and BNE complete from every state. -/
theorem witness_instruction_words :
    0xFFFFF017#32 &&& 0x0000007F#32 = 0x00000017#32 ∧ 0xFFFFF0EF#32 &&& 0x0000007F#32 = 0x0000006F#32 ∧
    0xFFFF8F93#32 &&& 0x0000707F#32 = 0x00000013#32 ∧ 0xFFFF9FE3#32 &&& 0x0000707F#32 = 0x00001063#32 ∧
    0xFFFF9FF3#32 &&& 0x0000707F#32 = 0x00001073#32 ∧ 0xFFFFAFF3#32 &&& 0x0000707F#32 = 0x00002073#32 ∧
    0xFFFFDFF3#32 &&& 0x0000707F#32 = 0x00005073#32 := by decide

theorem witness_AuipcAddsUpperImmediateToPc : 0xFFFFF017#32 &&& 0x0000007F#32 = 0x00000017#32 := witness_instruction_words.1

theorem witness_JalLinksAndJumps : 0xFFFFF0EF#32 &&& 0x0000007F#32 = 0x0000006F#32 := witness_instruction_words.2.1

theorem witness_AddiAddsImmediate :
    0xFFFF8F93#32 &&& 0x0000707F#32 = 0x00000013#32 ∧ (5 : RegIdx) ≠ 3 := by decide

/-- Taken, not taken, and one register compared with itself. -/
theorem witness_BneBranchesWhenRegistersDiffer :
    sample.hart0.readX 1 ≠ sample.hart0.readX 2 ∧ sample.hart0.readX 0 = sample.hart0.readX 2 ∧
    sample.hart0.readX 1 = sample.hart0.readX 1 := by decide

/-- CSR 0xFFF and CSR 0 are present, and each clause's other half is met by an absent CSR. -/
theorem witness_CsrrwReplacesCsr :
    SparseWF 0 sample.hart0.csr ∧ csrPresent sample.params 0xFFF = true ∧ csrPresent sample.params 0 = true ∧
    SparseWF 0 (withoutCsr sample 0xFFF).hart0.csr ∧ csrPresent (withoutCsr sample 0xFFF).params 0xFFF = false := by decide

theorem witness_CsrrsSetsBits :
    SparseWF 0 sample.hart0.csr ∧ csrPresent sample.params 0x340 = true ∧
    csrPresent (withoutCsr sample 0x340).params 0x340 = false ∧ (0x341 : CsrAddr) ≠ 0x340 := by decide

theorem witness_CsrrwiWritesImmediate :
    SparseWF 0 sample.hart0.csr ∧ csrPresent sample.params 0x7C0 = true ∧
    csrPresent (withoutCsr sample 0x7C0).params 0x7C0 = false := by decide

theorem witness_PresenceAloneDecidesCsrAccess :
    Instr.csr? (.csrrw 0 0xC00 0) = some 0xC00 ∧
    (withoutCsr (machine .x64 0 0x34009173 [] []) 0x340).status = .live ∧
    (withoutCsr (machine .x64 0 0x34009173 [] []) 0x340).fetch = some 0x34009173#32 ∧
    decode 0x34009173#32 = .ok (.csrrw 2 0x340 1) ∧
    csrPresent (withoutCsr (machine .x64 0 0x34009173 [] []) 0x340).params 0x340 = false := by decide

theorem witness_NoCsrAccessIsSkipped :
    SparseWF 0 sample.hart0.csr ∧ csrPresent sample.params 0x340 = true := by decide

theorem witness_RegisterZeroIsWired : (1 : RegIdx) ≠ 0 ∧ (31 : RegIdx) ≠ 0 ∧ (0 : RegIdx) ≠ 31 := by decide

theorem witness_CsrsHoldWhatIsWritten : SparseWF 0 sample.hart0.csr ∧ (0 : CsrAddr) ≠ 0xFFF := by decide

theorem witness_EveryInstructionKeepsItsFrame :
    SparseWF 0 sample.hart0.csr ∧ (∃ t, exec (.csrrw 3 0x340 1) sample = .next t) ∧
    Instr.rd? (.csrrw 3 0x340 1) ≠ some 4 ∧ Instr.csr? (.csrrw 3 0x340 1) ≠ some 0x341 :=
  ⟨by decide, ⟨_, rfl⟩, by decide, by decide⟩

theorem witness_PcAfterACompletedStep : ∃ t, step sample = .next t := sample_steps

/-- Another memory that fetches the same. -/
theorem witness_MemoryReachesAStepOnlyByFetch :
    ({ sample with mem := sample.mem.writeByte 100 7 } : State).fetch = sample.fetch ∧
    sample.mem.writeByte 100 7 ≠ sample.mem := by decide

theorem witness_StepKeepsLegal : sample.Legal ∧ ∃ t, step sample = .next t := ⟨sample_legal, sample_steps⟩

theorem witness_RunStaysLegal : sample.Legal := sample_legal

theorem witness_EvenPcStaysEven : sample.hart0.pc.toNat % 2 = 0 ∧ ∃ t, step sample = .next t := ⟨by decide, sample_steps⟩

/-- A write that ends at CAPACITY, one that passes it, and an empty write at CAPACITY (D10). -/
theorem witness_MemWriteIsAllOrNothing :
    sample.mem.wf ∧ 4094 + [1#8, 2#8].length ≤ sample.mem.capacity ∧ sample.mem.capacity < 4095 + [1#8, 2#8].length ∧
    4096 + ([] : List Byte).length ≤ sample.mem.capacity := by decide

theorem witness_DescriptorsApplyInOrder :
    sample.mem.wf ∧ Descriptor.Fits sample.mem.capacity ⟨4094, [1, 2]⟩ ∧ ¬ Descriptor.Fits sample.mem.capacity ⟨4095, [1, 2]⟩ ∧
    [⟨4094, [1, 2]⟩, ⟨4095, [1, 2]⟩, ⟨0, []⟩] = [Descriptor.mk 4094 [1, 2]] ++ Descriptor.mk 4095 [1, 2] :: [⟨0, []⟩] := by decide

theorem witness_CreateRejectsOtherHartCounts :
    2 ≤ 2 ∧ ∃ s, create (Params.atDefaults .x32) generous 1 [] 1 = .ok s := ⟨le_refl 2, ⟨_, rfl⟩⟩

theorem witness_CreateChecksInOrder :
    (4095 < roundUpToPage 4096 1) ∧ (0 < 4096 ∧ roundUpToPage 4096 4096 ≤ generous.addressable ∧ generous.succeeds = true) ∧
    ({ generous with succeeds := false } : Allocation).succeeds = false ∧
    Descriptor.Fits (roundUpToPage 4096 4096) ⟨4095, [1]⟩ ∧ ¬ Descriptor.Fits (roundUpToPage 4096 4096) ⟨4096, [1]⟩ := by decide

theorem witness_StateAfterCreateAndReset :
    (∃ s, create (Params.atDefaults .x32) generous 100 [⟨99, [0xAA, 0xBB]⟩] 1 = .ok s) ∧ generous.succeeds = true ∧
    ∃ t, hostReset generous [⟨0, [0x13, 0x05]⟩] sample = .ok t := ⟨⟨_, rfl⟩, rfl, ⟨_, rfl⟩⟩

theorem witness_ResetLeavesNoResidue :
    sample.status = .live ∧ State.reset.status = .live ∧ sample.params = State.reset.params ∧
    sample.mem.capacity = State.reset.mem.capacity ∧ (∃ t, hostReset generous [] sample = .ok t) :=
  ⟨by decide, by decide, by decide, by decide, ⟨_, rfl⟩⟩

theorem witness_ResetFailsOrSucceeds :
    sample.status = .live ∧ generous.succeeds = true ∧ ({ generous with succeeds := false } : Allocation).succeeds = false ∧
    Descriptor.Fits sample.mem.capacity ⟨0, [1]⟩ ∧ ¬ Descriptor.Fits sample.mem.capacity ⟨4097, []⟩ := by decide

theorem witness_CapacityIsWholePagesAndFixed :
    0 < (Params.atDefaults .x64).pageSize ∧ (∃ s, create (Params.atDefaults .x64) generous 4097 [] 1 = .ok s) ∧
    (∃ t, step sample = .next t) ∧ ∃ t, hostReset generous [] sample = .ok t :=
  ⟨by decide, ⟨_, rfl⟩, sample_steps, ⟨_, rfl⟩⟩

theorem witness_DefunctMachinesAreRefused :
    (∃ e t, hostReset generous [⟨4096, [1]⟩] sample = .failed e t) ∧ (∃ t, hostDestroy sample = .ok t) ∧
    sample.released.status = .defunct := ⟨⟨_, _, rfl⟩, ⟨_, rfl⟩, rfl⟩

theorem witness_LifecycleKeepsLegal :
    paramsLegal (Params.atDefaults .x32) ∧ (∃ s, create (Params.atDefaults .x32) generous 1 [] 1 = .ok s) ∧ sample.Legal ∧
    ∃ t, hostDestroy sample = .ok t := ⟨by decide, ⟨_, rfl⟩, sample_legal, ⟨_, rfl⟩⟩

theorem witness_ResetStateIsCreated : generous.succeeds = true ∧ 4096 ≤ generous.addressable := by decide

theorem witness_RunEndsAsTabled : sample.status = .live ∧ Options.defaults.haltOnIllegal = true := by decide

theorem witness_LimitedRunEnds :
    sample.status = .live ∧ ({ Options.defaults with maxSteps := some 0 } : Options).haltOnIllegal = true ∧
    ({ Options.defaults with maxSteps := some 0 } : Options).maxSteps = some 0 ∧ 0 ≤ 0 ∧
    ({ Options.defaults with maxSteps := some 7 } : Options).maxSteps = some 7 ∧ 7 ≤ 7 := by decide

theorem witness_OptionsAreChecked :
    OptionRequest.unrecognised "speed" ∈ [OptionRequest.trace true, .unrecognised "speed"] ∧
    (∀ name, .unrecognised name ∉ [OptionRequest.haltOnIllegal false, .maxSteps (some 0), .trace true]) ∧
    [OptionRequest.haltOnIllegal false, .maxSteps (some 0), .trace true].Pairwise (fun q r => q.field? ≠ r.field?) ∧
    (∀ r ∈ [OptionRequest.maxSteps (some 0)], r.field? ≠ some .trace ∧ r.field? ≠ some .haltOnIllegal) ∧
    (∀ r ∈ [OptionRequest.trace true], r.field? ≠ some .maxSteps) ∧
    sample.status = .live ∧ ({ Options.defaults with haltOnIllegal := false } : Options).haltOnIllegal = false := by
  simp [OptionRequest.field?, sample, machine]

/-- A list that asks for each field twice, or holds two unrecognised options, meets the hypotheses. -/
theorem witness_RepeatedRequestsAndFirstError :
    (∀ name, .unrecognised name ∉ [OptionRequest.trace true, .maxSteps none, .haltOnIllegal false]) ∧
    (∀ r ∈ [OptionRequest.maxSteps (some 7), .haltOnIllegal true], r.field? ≠ some .trace) ∧
    (∀ r ∈ [OptionRequest.trace false, .haltOnIllegal true], r.field? ≠ some .maxSteps) ∧
    ∀ r ∈ [OptionRequest.trace false, .maxSteps (some 7)], r.field? ≠ some .haltOnIllegal := by
  simp [OptionRequest.field?]

/-- A run from reset fails at once, and can be run again. -/
theorem witness_FailedRunFailsAgain :
    run Options.defaults 1 State.reset = .failure (.illegalInstruction 0 0#32) State.reset ∧
    Options.defaults.haltOnIllegal = true ∧ Options.defaults.maxSteps ≠ some 0 := by decide

end Sys2Proof.Tests
end

section
/-! SUPPORT. The inversion of a completed instruction and of a completed step, drawn from `exec_cases` and `step_cases`, and
what the one COMMIT they end in leaves unchanged (spec/40_engine.md R93). -/

namespace Sys2Proof.Machine

/-- An instruction that completes has done one COMMIT, to its own `rd` and its own CSR, and that CSR is present. -/
theorem exec_eq_next {i : Instr} {s t : State} (h : exec i s = .next t) :
    ∃ e : Effects s.params.xlen.bits, t = s.commit e ∧ e.rdWrite.map Prod.fst = i.rd? ∧
      e.csrWrite.map Prod.fst = i.csr? ∧ ∀ a, i.csr? = some a → csrPresent s.params a = true := by
  rcases exec_cases i s with ⟨e, he, hrd, hcsr, hpresent⟩ | ⟨a, -, -, he⟩
  · exact ⟨e, Host.Outcome.next.inj (h.symm.trans he), hrd, hcsr, hpresent⟩
  · cases h.symm.trans he

/-- A step that completes has executed the instruction it fetched and decoded. -/
theorem step_eq_next {s t : State} (h : step s = .next t) :
    ∃ w i, s.fetch = some w ∧ decode w = .ok i ∧ exec i s = .next t := by
  rcases step_cases s with ⟨-, he⟩ | ⟨-, -, he⟩ | ⟨w, r, -, -, -, he⟩ | ⟨w, i, -, hf, hd, he⟩
  · cases h.symm.trans he
  · cases h.symm.trans he
  · cases h.symm.trans he
  · exact ⟨w, i, hf, hd, he.symm.trans h⟩

section Commit

variable {n : Nat}

/-- A register write leaves what every other register reads as, `x[0]` among them (R22). -/
theorem Hart.readX_writeX_of_ne (h : Hart n) {r q : RegIdx} (v : BitVec n) (hq : q ≠ r) :
    (h.writeX r v).readX q = h.readX q := by
  rw [Hart.readX_writeX, if_neg hq]
  split_ifs with hq0
  · rw [hq0, Hart.readX_zero]
  · rfl

/-- COMMIT leaves every register but the one it writes (R22). -/
theorem Hart.readX_commit_of_ne (h : Hart n) (e : Effects n) (r : RegIdx) (hr : e.rdWrite.map Prod.fst ≠ some r) :
    (h.commit e).readX r = h.readX r := by
  rw [Hart.readX_commit]
  cases hw : e.rdWrite with
  | none => rfl
  | some w =>
    have hne : r ≠ w.1 := fun heq => hr (by simp [hw, heq])
    exact h.readX_writeX_of_ne w.2 hne

/-- The CSRs after COMMIT. -/
theorem Hart.readCsr_commit (h : Hart n) (e : Effects n) (a : CsrAddr) :
    (h.commit e).readCsr a = (h.commitCsr e.csrWrite).readCsr a := by
  unfold Hart.readCsr; rw [Hart.commit_csr]

/-- COMMIT leaves every CSR but the one it writes (R28). -/
theorem Hart.readCsr_commit_of_ne (h : Hart n) (e : Effects n) (a : CsrAddr) (hwf : SparseWF 0 h.csr)
    (ha : e.csrWrite.map Prod.fst ≠ some a) : (h.commit e).readCsr a = h.readCsr a := by
  rw [Hart.readCsr_commit]
  cases hw : e.csrWrite with
  | none => rfl
  | some w =>
    have hne : a ≠ w.1 := fun heq => ha (by simp [hw, heq])
    exact (h.readCsr_writeCsr w.1 a w.2 hwf).trans (if_neg hne)

/-- A CSR write to a present CSR gives no absent CSR storage (R27). -/
theorem Hart.writeCsr_csrStored (p : Params) (h : Hart n) (a : CsrAddr) (v : BitVec n) (hs : CsrStored p h.csr)
    (ha : csrPresent p a = true) : CsrStored p (h.writeCsr a v).csr := by
  intro c hc
  rcases mem_sparseSet 0 h.csr a.val v c hc with ⟨rfl, -⟩ | hc
  · exact ⟨a.isLt, ha⟩
  · exact hs c hc

/-- COMMIT of a write to a present CSR gives no absent CSR storage (R27). -/
theorem Hart.commit_csrStored (p : Params) (h : Hart n) (e : Effects n) (hs : CsrStored p h.csr)
    (hp : ∀ a, e.csrWrite.map Prod.fst = some a → csrPresent p a = true) : CsrStored p (h.commit e).csr := by
  rw [Hart.commit_csr]
  cases hw : e.csrWrite with
  | none => exact hs
  | some w => exact h.writeCsr_csrStored p w.1 w.2 hs (hp w.1 (by rw [hw]; rfl))

end Commit

/-- COMMIT of a write to a present CSR keeps a machine legal. -/
theorem State.commit_legal (s : State) (e : Effects s.params.xlen.bits) (h : s.Legal)
    (hp : ∀ a, e.csrWrite.map Prod.fst = some a → csrPresent s.params a = true) : (s.commit e).Legal where
  params := h.params
  mem := h.mem
  capacity := h.capacity
  id := (s.hart0.commit_id e).trans h.id
  x0 := (s.hart0.commit_x0 e).trans h.x0
  csr := s.hart0.commit_csr_wf e h.csr
  csrStored := s.hart0.commit_csrStored s.params e h.csrStored hp

/-- Settles O32: a completed step is one COMMIT, which writes at most a present CSR. -/
theorem stepKeepsLegal : Obligations.StepKeepsLegal := by
  intro s t hs h
  obtain ⟨w, i, -, -, hexec⟩ := step_eq_next h
  obtain ⟨e, rfl, -, hcsr, hpresent⟩ := exec_eq_next hexec
  exact s.commit_legal e hs fun a ha => hpresent a (hcsr ▸ ha)

/-- Settles O29: a completed instruction is one COMMIT, to its own rd and its own CSR. -/
theorem everyInstructionKeepsItsFrame : Obligations.EveryInstructionKeepsItsFrame := by
  intro i s t hwf h
  obtain ⟨e, rfl, hrd, hcsr, -⟩ := exec_eq_next h
  exact ⟨s.hart0.commit e, rfl,
    fun r hr => s.hart0.readX_commit_of_ne e r (hrd ▸ hr),
    fun a ha => s.hart0.readCsr_commit_of_ne e a hwf (hcsr ▸ ha),
    s.hart0.commit_id e, rfl, fun _ => rfl⟩

end Sys2Proof.Machine
end

section
/-! SUPPORT. Evenness of the pc: every offset the decoder can produce is even, and so is every sum of an even pc and an even
offset modulo 2^XLEN (spec/10_state.md R26; spec/30_encoding.md R66, R67). -/

namespace Sys2Proof

/-- The offset an instruction may redirect the pc by, if it is a jump or a branch. -/
def Instr.offset? : Instr → Option Int
  | .auipc _ _ => none
  | .jal _ imm => some imm
  | .addi _ _ _ => none
  | .bne _ _ imm => some imm
  | .csrrw _ _ _ => none
  | .csrrs _ _ _ => none
  | .csrrwi _ _ _ => none

/-- A vector whose lowest bit is a 0 appended to it is an even integer. -/
theorem toInt_append_zero_even {m : Nat} (v : BitVec m) : (v ++ 0#1).toInt % 2 = 0 := by
  rw [BitVec.toInt_append_zero]; omega

theorem immJ_even (w : InstrWord) : immJ w % 2 = 0 := toInt_append_zero_even _

theorem immB_even (w : InstrWord) : immB w % 2 = 0 := toInt_append_zero_even _

/-- A decoded jump or branch has an even offset. -/
theorem decode_offset_even {w : InstrWord} {i : Instr} {k : Int} (h : decode w = .ok i) (hk : i.offset? = some k) :
    k % 2 = 0 := by
  unfold decode at h
  cases hc : classify w <;> rw [hc] at h <;> cases h
  case jal => cases hk; exact immJ_even w
  case bne => cases hk; exact immB_even w
  all_goals cases hk

namespace Machine

/-- The CSR instructions' one operation, when it completes. -/
theorem csrAccess_eq_next {i : Instr} {rd : RegIdx} {a : CsrAddr} {s t : State} {v : BitVec s.params.xlen.bits}
    (h : csrAccess i rd a s v = .next t) :
    t = s.commit { rdWrite := some (rd, s.hart0.readCsr a), csrWrite := some (a, v) } := by
  rcases csrAccess_cases i rd a s v with ⟨-, he⟩ | ⟨-, he⟩
  · exact Host.Outcome.next.inj (h.symm.trans he)
  · cases h.symm.trans he

/-- An instruction that completes advances the pc by 4 or redirects it by its own offset (R98). -/
theorem exec_redirect {i : Instr} {s t : State} (h : exec i s = .next t) :
    ∃ e : Effects s.params.xlen.bits, t = s.commit e ∧
      (e.redirect = none ∨ ∃ k, i.offset? = some k ∧ e.redirect = some (pcRelative s.hart0 k)) := by
  cases i with
  | auipc rd imm => exact ⟨_, (Host.Outcome.next.inj h).symm, .inl rfl⟩
  | jal rd imm => exact ⟨_, (Host.Outcome.next.inj h).symm, .inr ⟨imm, rfl, rfl⟩⟩
  | addi rd rs1 imm => exact ⟨_, (Host.Outcome.next.inj h).symm, .inl rfl⟩
  | bne rs1 rs2 imm =>
    refine ⟨_, (Host.Outcome.next.inj h).symm, ?_⟩
    cases registersDiffer s.hart0 rs1 rs2 with
    | false => exact .inl rfl
    | true => exact .inr ⟨imm, rfl, rfl⟩
  | csrrw rd a rs1 => exact ⟨_, csrAccess_eq_next h, .inl rfl⟩
  | csrrs rd a rs1 => exact ⟨_, csrAccess_eq_next h, .inl rfl⟩
  | csrrwi rd a u => exact ⟨_, csrAccess_eq_next h, .inl rfl⟩

/-- An even number stays even under an even addend modulo 2^XLEN, for 2^XLEN is even. -/
theorem toNat_add_immValue_even (x : Xlen) (v : BitVec x.bits) (k : Int) (hv : v.toNat % 2 = 0) (hk : k % 2 = 0) :
    (v + immValue x.bits k).toNat % 2 = 0 := by
  rw [immValue, BitVec.toNat_add, BitVec.toNat_ofInt]
  cases x <;> simp only [Xlen.bits] at hv ⊢ <;> omega

/-- The pc after COMMIT is even when it was, for no redirect and for one by an even offset. -/
theorem nextPc_even {s : State} {r : Option (BitVec s.params.xlen.bits)} (hpc : s.hart0.pc.toNat % 2 = 0)
    (hr : r = none ∨ ∃ k : Int, k % 2 = 0 ∧ r = some (pcRelative s.hart0 k)) :
    (nextPc s.hart0.pc r).toNat % 2 = 0 := by
  rcases hr with rfl | ⟨k, hk, rfl⟩
  · have h4 : (4 : BitVec s.params.xlen.bits) = immValue _ 4 := (BitVec.ofInt_ofNat _ 4).symm
    rw [nextPc, h4]
    exact toNat_add_immValue_even _ _ 4 hpc rfl
  · exact toNat_add_immValue_even _ _ k hpc hk

/-- Settles O35: the offset of a decoded jump or branch is even, and so is the advance by 4. -/
theorem evenPcStaysEven : Obligations.EvenPcStaysEven := by
  intro s t hpc h
  obtain ⟨w, i, -, hdecode, hexec⟩ := step_eq_next h
  obtain ⟨e, rfl, hr⟩ := exec_redirect hexec
  exact nextPc_even hpc (hr.imp_right fun ⟨k, hk, htarget⟩ => ⟨k, decode_offset_even hdecode hk, htarget⟩)

end Machine
end Sys2Proof
end

section
/-! SUPPORT. What descriptors leave in memory, and the machine that create and reset make (spec/20_memory.md R48;
spec/10_state.md R33). -/

namespace Sys2Proof.Machine

/-- The byte a descriptor writes at `a`, if it covers `a`. -/
def Descriptor.byteAt? (d : Descriptor) (a : Nat) : Option Byte := if d.offset ≤ a then d.bytes[a - d.offset]? else none

/-- The byte to be found at `a` once `d` is applied too: `d`'s own, else the one found before. -/
theorem Descriptor.byteAt?_or (d : Descriptor) (a : Nat) (found : Option Byte) :
    (d.byteAt? a).or found =
      if d.offset ≤ a ∧ a < d.offset + d.bytes.length then d.bytes[a - d.offset]? else found := by
  unfold Descriptor.byteAt?
  by_cases hlow : d.offset ≤ a
  · by_cases hhigh : a < d.offset + d.bytes.length
    · have hlt : a - d.offset < d.bytes.length := by omega
      simp [hlow, hhigh, hlt]
    · have hge : d.bytes.length ≤ a - d.offset := by omega
      simp [hlow, hhigh, hge]
  · simp [hlow]

theorem lastDescriptorByte_eq_foldl (content : List Descriptor) (a : Nat) :
    lastDescriptorByte content a = content.foldl (fun found d => (d.byteAt? a).or found) none := by
  simp only [Descriptor.byteAt?_or, lastDescriptorByte]

/-- What the descriptors write goes before what was found already. -/
theorem foldl_byteAt?_or (content : List Descriptor) (a : Nat) (found : Option Byte) :
    content.foldl (fun found d => (d.byteAt? a).or found) found = (lastDescriptorByte content a).or found := by
  rw [lastDescriptorByte_eq_foldl]
  induction content generalizing found with
  | nil => rfl
  | cons d ds ih => simp only [List.foldl_cons, Option.or_none, ih (Option.or _ _), ih (d.byteAt? a), Option.or_assoc]

@[simp] theorem lastDescriptorByte_nil (a : Nat) : lastDescriptorByte [] a = none := rfl

/-- A byte of the first descriptor is the last written where no later one covers it. -/
theorem lastDescriptorByte_cons (d : Descriptor) (ds : List Descriptor) (a : Nat) :
    lastDescriptorByte (d :: ds) a = (lastDescriptorByte ds a).or (d.byteAt? a) := by
  rw [lastDescriptorByte_eq_foldl, List.foldl_cons, Option.or_none, foldl_byteAt?_or]

/-- A byte after a descriptor's MemWrite: the descriptor's, else what it was (R47). -/
theorem Memory.readByte_write_descriptor {m m' : Memory} {d : Descriptor} (h : m.wf)
    (hw : m.write d.offset d.bytes = some m') (a : Nat) : m'.readByte a = (d.byteAt? a).getD (m.readByte a) := by
  obtain ⟨hin, rfl⟩ := (m.write_eq_some m' _ _).mp hw
  rw [m.readByte_storeBytes _ _ h hin, Descriptor.byteAt?]
  split_ifs
  · exact List.getD_eq_getElem?_getD ..
  · rfl

/-- A byte after all descriptors are applied: the last one written there, else what it was (R48). -/
theorem applyDescriptors_readByte (m : Memory) (content : List Descriptor) (h : m.wf)
    (happlied : (applyDescriptors m content).2 = none) (a : Nat) :
    (applyDescriptors m content).1.readByte a = (lastDescriptorByte content a).getD (m.readByte a) := by
  induction content generalizing m with
  | nil => rfl
  | cons d ds ih =>
    unfold applyDescriptors at happlied ⊢
    cases hw : m.write d.offset d.bytes with
    | none => simp [hw] at happlied
    | some m' =>
      simp only [hw] at happlied ⊢
      rw [ih m' (m.write_wf m' _ _ h hw) happlied, Memory.readByte_write_descriptor h hw, lastDescriptorByte_cons,
        Option.getD_or]

/-- Fresh storage: its CAPACITY, and each byte the last one written there, else 0 (R33). -/
theorem freshMemory_content {alloc : Allocation} {capacity : Nat} {content : List Descriptor} {m : Memory}
    (h : freshMemory alloc capacity content = .ok m) :
    m.capacity = capacity ∧ ∀ a, m.readByte a = (lastDescriptorByte content a).getD 0 := by
  obtain ⟨-, happly⟩ := (freshMemory_eq_ok ..).mp h
  have hcapacity := applyDescriptors_capacity ⟨capacity, []⟩ content
  have hread := applyDescriptors_readByte ⟨capacity, []⟩ content (Memory.empty_wf capacity) (by rw [happly])
  rw [happly] at hcapacity hread
  exact ⟨hcapacity, hread⟩

/-- Which bytes fresh storage holds does not depend on the allocation that made it. -/
theorem freshMemory_of_succeeds {alloc again : Allocation} {capacity : Nat} {content : List Descriptor} {m : Memory}
    (h : freshMemory alloc capacity content = .ok m) (hagain : again.succeeds = true) :
    freshMemory again capacity content = .ok m :=
  (freshMemory_eq_ok ..).mpr ⟨hagain, ((freshMemory_eq_ok ..).mp h).2⟩

/-- Every register's storage is 0 after reset, and so is what it reads as. -/
theorem Hart.reset_registers (p : Params) (r : RegIdx) : (Hart.reset p).x[r.val] = 0 ∧ (Hart.reset p).readX r = 0 := by
  have hx : (Hart.reset p).x[r.val] = 0 := Vector.getElem_replicate ..
  exact ⟨hx, (congrArg (if r = 0 then 0 else ·) hx).trans (ite_self 0)⟩

/-- Settles O40: both operations put fresh storage and a reset hart in the machine. -/
theorem stateAfterCreateAndReset : Obligations.StateAfterCreateAndReset := by
  constructor
  · intro p alloc req content count s h
    obtain ⟨-, -, -, m, hm, rfl⟩ := (create_eq_ok ..).mp h
    obtain ⟨hcapacity, hread⟩ := freshMemory_content hm
    refine ⟨rfl, rfl, hcapacity, hread, rfl, rfl, Hart.reset_registers p, fun _ => rfl, fun again hagain => ?_⟩
    exact (hostReset_eq_ok ..).mpr ⟨rfl, m, hcapacity ▸ freshMemory_of_succeeds hm hagain, rfl⟩
  · intro alloc content s t h
    obtain ⟨hlive, m, hm, rfl⟩ := (hostReset_eq_ok ..).mp h
    obtain ⟨hcapacity, hread⟩ := freshMemory_content hm
    exact ⟨rfl, hlive, hcapacity, hread, rfl, rfl, Hart.reset_registers s.params, fun _ => rfl⟩

/-- Settles O33: memory and CSRs are empty, every register is 0, and CAPACITY is one page. -/
theorem resetIsLegal : Obligations.ResetIsLegal where
  params := by decide
  mem := State.reset_mem_wf
  capacity := by decide
  id := Hart.reset_id _
  x0 := (Hart.reset_registers _ 0).1
  csr := ⟨List.Pairwise.nil, fun _ hc => absurd hc List.not_mem_nil⟩
  csrStored := fun _ hc => absurd hc List.not_mem_nil

/-- Settles O46: each check of create passes, and an empty list applies to fresh storage as nothing. -/
theorem resetStateIsCreated : Obligations.ResetStateIsCreated := by
  intro alloc hsucceeds haddressable
  have hfresh : freshMemory alloc 4096 [] = .ok { capacity := 4096, cells := [] } :=
    (freshMemory_eq_ok ..).mpr ⟨hsucceeds, rfl⟩
  exact (create_eq_ok ..).mpr ⟨rfl, by decide, haddressable, _, hfresh, rfl⟩

end Sys2Proof.Machine
end

section
/-! SUPPORT. The registers and the CSRs of one hart: a read after a write (spec/10_state.md R22, R27, R28). -/

namespace Sys2Proof.Machine

/-- Settles O27, by the read-after-write rule of the registers. -/
theorem registerZeroIsWired : Obligations.RegisterZeroIsWired := by
  intro x h v
  refine ⟨h.readX_zero, rfl, fun r hr => ⟨?_, fun q hq => h.readX_writeX_of_ne v hq⟩⟩
  rw [Hart.readX_writeX, if_neg hr, if_pos rfl]

/-- Settles O28, by the read-after-write rule of the CSRs; the other fields are not touched. -/
theorem csrsHoldWhatIsWritten : Obligations.CsrsHoldWhatIsWritten := by
  intro x h a v hwf
  exact ⟨(h.readCsr_writeCsr a a v hwf).trans (if_pos rfl),
    fun b hb => (h.readCsr_writeCsr a b v hwf).trans (if_neg hb),
    h.writeCsr_x a v, h.writeCsr_pc a v, h.writeCsr_id a v⟩

end Sys2Proof.Machine
end

section
/-! SUPPORT. A step phase by phase, one equation for each way it goes (spec/40_engine.md R91, R93), and where memory meets it:
the fetch port reads memory, and nothing else in a step reads or writes it (spec/20_memory.md R45, R50, R53). -/

namespace Sys2Proof

/-- Appended vectors as one number: the low one is below what the high one is shifted by, so their OR is a sum. -/
theorem toNat_append_eq_add {m k : Nat} (high : BitVec m) (low : BitVec k) :
    (high ++ low).toNat = 2 ^ k * high.toNat + low.toNat := by
  rw [BitVec.toNat_append, ← Nat.shiftLeft_add_eq_or_of_lt low.isLt, Nat.shiftLeft_eq, Nat.mul_comm]

/-- Four bytes as one number, the byte at the lowest address weighing least (20_memory.md R45). -/
theorem wordOfBytes_toNat (b0 b1 b2 b3 : Byte) :
    (wordOfBytes b0 b1 b2 b3).toNat = b0.toNat + 2 ^ 8 * b1.toNat + 2 ^ 16 * b2.toNat + 2 ^ 24 * b3.toNat := by
  simp only [wordOfBytes, toNat_append_eq_add]
  omega

namespace Machine

/-- A Defunct machine has no step (70_reset_and_hazards.md R188; log entry 10). -/
theorem step_of_defunct {s : State} (hdefunct : s.status = .defunct) : step s = .refused .defunctMachine := by
  simp only [step, hdefunct]

/-- A live machine that fetches no word fails at its pc (60_exceptions.md R162). -/
theorem step_of_fetch_eq_none {s : State} (hlive : s.status = .live) (hfetch : s.fetch = none) :
    step s = .fault (.fetchOutOfBounds s.hart0.pc.toNat) := by
  simp only [step, hlive, hfetch, raise]

/-- A fetched word that does not decode is illegal at the pc (60_exceptions.md R161). -/
theorem step_of_decode_error {s : State} {w : InstrWord} {r : Reject} (hlive : s.status = .live)
    (hfetch : s.fetch = some w) (hdecode : decode w = .error r) :
    step s = .fault (.illegalInstruction s.hart0.pc.toNat w) := by
  simp only [step, hlive, hfetch, hdecode, raise]

/-- A fetched word that decodes is executed (40_engine.md R93). -/
theorem step_of_decode_ok {s : State} {w : InstrWord} {i : Instr} (hlive : s.status = .live)
    (hfetch : s.fetch = some w) (hdecode : decode w = .ok i) : step s = exec i s := by
  simp only [step, hlive, hfetch, hdecode]

/-- Settles O12: the fetch answers the word of the four bytes at the pc exactly when they are in bounds. -/
theorem fetchIsLittleEndianAndBounded : Obligations.FetchIsLittleEndianAndBounded := by
  intro s
  refine ⟨fun hin => ⟨_, s.fetch_eq.trans (if_pos hin), wordOfBytes_toNat ..⟩, fun hout => ?_⟩
  have hnone : s.fetch = none := s.fetch_eq.trans (if_neg (Nat.not_le.mpr hout))
  exact ⟨hnone, fun hlive => step_of_fetch_eq_none hlive hnone⟩

/-- The same end of a step, with another memory in the machine it leaves. -/
def outcomeWithMem (m : Memory) : Host.Outcome State Fault Refusal → Host.Outcome State Fault Refusal
  | .next t => .next { t with mem := m }
  | .fault f => .fault f
  | .refused r => .refused r

/-- The CSR instructions' one operation does not look at memory. -/
theorem csrAccess_withMem (i : Instr) (rd : RegIdx) (a : CsrAddr) (s : State) (m : Memory)
    (v : BitVec s.params.xlen.bits) :
    csrAccess i rd a { s with mem := m } v = outcomeWithMem m (csrAccess i rd a s v) := by
  unfold csrAccess
  cases csrPresent s.params a <;> rfl

/-- EXECUTE does not look at memory: no form loads or stores (R50). -/
theorem exec_withMem (i : Instr) (s : State) (m : Memory) :
    exec i { s with mem := m } = outcomeWithMem m (exec i s) := by
  cases i with
  | auipc rd imm => rfl
  | jal rd imm => rfl
  | addi rd rs1 imm => rfl
  | bne rs1 rs2 imm => rfl
  | csrrw rd a rs1 => exact csrAccess_withMem ..
  | csrrs rd a rs1 => exact csrAccess_withMem ..
  | csrrwi rd a u => exact csrAccess_withMem ..

/-- A step looks at memory by its fetch alone (R53). -/
theorem step_withMem (s : State) (m : Memory) (hfetch : ({ s with mem := m } : State).fetch = s.fetch) :
    step { s with mem := m } = outcomeWithMem m (step s) := by
  rcases step_cases s with ⟨hdefunct, he⟩ | ⟨hlive, hnone, he⟩ | ⟨w, r, hlive, hw, hr, he⟩ | ⟨w, i, hlive, hw, hi, he⟩
  · rw [he]
    exact step_of_defunct hdefunct
  · rw [he]
    exact step_of_fetch_eq_none hlive (hfetch.trans hnone)
  · rw [he]
    exact step_of_decode_error hlive (hfetch.trans hw) hr
  · rw [he, ← exec_withMem]
    exact step_of_decode_ok hlive (hfetch.trans hw) hi

/-- A completed step leaves memory as it was: COMMIT writes none (R50). -/
theorem step_mem {s t : State} (h : step s = .next t) : t.mem = s.mem := by
  obtain ⟨w, i, -, -, hexec⟩ := step_eq_next h
  obtain ⟨e, rfl, -⟩ := exec_eq_next hexec
  exact s.commit_mem e

/-- Settles O31: neither EXECUTE nor COMMIT touches memory, so only the fetched word can tell two memories apart. -/
theorem memoryReachesAStepOnlyByFetch : Obligations.MemoryReachesAStepOnlyByFetch :=
  fun s m hfetch => ⟨step_withMem s m hfetch, fun _ => step_mem⟩

end Machine
end Sys2Proof
end

section
/-! SUPPORT. The load port: one MemWrite, and a list of descriptors in two parts (spec/20_memory.md R47, R48). -/

namespace Sys2Proof.Machine

/-- MemWrite answers out of bounds exactly when its bytes do not fit (R47). -/
theorem Memory.write_eq_none (m : Memory) (a : Nat) (bytes : List Byte) :
    m.write a bytes = none ↔ ¬ m.InBounds a bytes.length := by
  unfold Memory.write
  split_ifs with hin <;> simp [hin]

/-- Settles O36: in bounds MemWrite is `storeBytes`, whose bytes read back; out of bounds it answers no memory. -/
theorem memWriteIsAllOrNothing : Obligations.MemWriteIsAllOrNothing := by
  intro m a bytes hwf
  refine ⟨fun hin => ?_, fun hout => (m.write_eq_none a bytes).mpr (Nat.not_le.mpr hout)⟩
  have hread := m.readByte_storeBytes a bytes hwf hin
  refine ⟨_, (m.write_eq_some _ a bytes).mpr ⟨hin, rfl⟩, m.storeBytes_capacity a bytes, fun i hi => ?_, fun b hb => ?_⟩
  · simp [hread, hi]
  · rw [hread]
    rcases hb with hlow | hhigh
    · exact if_neg (Nat.not_le.mpr hlow)
    · have hpast : bytes.length ≤ b - a := by omega
      simp [hpast]

/-- The first descriptor, when it fits, is stored and the others are applied to what it leaves. -/
theorem applyDescriptors_cons_of_fits (m : Memory) (d : Descriptor) (ds : List Descriptor) (hd : d.Fits m.capacity) :
    applyDescriptors m (d :: ds) = applyDescriptors (m.storeBytes d.offset d.bytes) ds := by
  have hw := (m.write_eq_some _ d.offset d.bytes).mpr ⟨hd, rfl⟩
  simp only [applyDescriptors, hw]

/-- The first descriptor, when it does not fit, ends application with its error. -/
theorem applyDescriptors_cons_of_not_fits (m : Memory) (d : Descriptor) (ds : List Descriptor)
    (hd : ¬ d.Fits m.capacity) :
    applyDescriptors m (d :: ds) = (m, some (.descriptorOutOfBounds d.offset d.bytes.length)) := by
  have hw := (m.write_eq_none d.offset d.bytes).mpr hd
  simp only [applyDescriptors, hw]

/-- Descriptors that fit are applied, and the rest of the list to the memory they leave. -/
theorem applyDescriptors_append (m : Memory) (before after : List Descriptor)
    (hfits : ∀ d ∈ before, d.Fits m.capacity) :
    applyDescriptors m (before ++ after) = applyDescriptors (applyDescriptors m before).1 after := by
  induction before generalizing m with
  | nil => rfl
  | cons d ds ih =>
    obtain ⟨hd, hds⟩ := List.forall_mem_cons.mp hfits
    rw [List.cons_append, applyDescriptors_cons_of_fits m d _ hd, applyDescriptors_cons_of_fits m d _ hd]
    exact ih _ (by simpa using hds)

/-- Descriptors that all fit end application without an error. -/
theorem applyDescriptors_of_fits (m : Memory) (content : List Descriptor) (hfits : ∀ d ∈ content, d.Fits m.capacity) :
    (applyDescriptors m content).2 = none := by
  have happend := applyDescriptors_append m content [] hfits
  rw [List.append_nil] at happend
  exact congrArg Prod.snd happend

/-- A descriptor that does not fit, after others that do, ends application with those applied and its error (R48). -/
theorem applyDescriptors_of_not_fits (m : Memory) (before after : List Descriptor) (d : Descriptor)
    (hbefore : ∀ e ∈ before, e.Fits m.capacity) (hd : ¬ d.Fits m.capacity) :
    applyDescriptors m (before ++ d :: after) =
      ((applyDescriptors m before).1, some (.descriptorOutOfBounds d.offset d.bytes.length)) := by
  rw [applyDescriptors_append m before _ hbefore]
  exact applyDescriptors_cons_of_not_fits _ d after (by rwa [applyDescriptors_capacity])

/-- Settles O37: the descriptors before the first that does not fit are applied as if they stood alone. -/
theorem descriptorsApplyInOrder : Obligations.DescriptorsApplyInOrder := by
  intro m content hwf
  constructor
  · intro hfits
    have hnone := applyDescriptors_of_fits m content hfits
    exact ⟨hnone, applyDescriptors_readByte m content hwf hnone⟩
  · rintro before after d rfl hbefore hd
    exact applyDescriptors_of_not_fits m before after d hbefore hd

end Sys2Proof.Machine
end

section
/-! SUPPORT. CAPACITY: what create rounds a request up to, and that nothing changes it (spec/20_memory.md R40). -/

namespace Sys2Proof.Machine

/-- Rounding up gives a whole number of pages. -/
theorem roundUpToPage_mod (pageSize req : Nat) : roundUpToPage pageSize req % pageSize = 0 := Nat.mul_mod_right ..

/-- Rounding up adds less than a page. -/
theorem roundUpToPage_lt (pageSize req : Nat) (hp : 0 < pageSize) : roundUpToPage pageSize req < req + pageSize := by
  have hle : roundUpToPage pageSize req ≤ req + pageSize - 1 := Nat.mul_div_le ..
  omega

/-- Settles O43: create's CAPACITY is the request rounded up; a step leaves memory, and fresh storage has the CAPACITY asked
for. -/
theorem capacityIsWholePagesAndFixed : Obligations.CapacityIsWholePagesAndFixed := by
  refine ⟨fun p alloc req content count s hp h => ?_, fun s t h => congrArg Memory.capacity (step_mem h),
    fun alloc content s t h => ?_⟩
  · obtain ⟨-, -, -, m, hm, rfl⟩ := (create_eq_ok ..).mp h
    obtain ⟨hcapacity, -⟩ := freshMemory_content hm
    rw [hcapacity]
    exact ⟨roundUpToPage_mod .., le_roundUpToPage _ _ hp, roundUpToPage_lt _ _ hp⟩
  · obtain ⟨-, m, hm, rfl⟩ := (hostReset_eq_ok ..).mp h
    exact (freshMemory_content hm).1

end Sys2Proof.Machine
end

section
/-! SUPPORT. Slices of a word as numbers, and each field of the decoder as its bit range (spec/30_encoding.md R61). -/

namespace Sys2Proof

/-- A slice of a word as a number. -/
theorem toNat_slice (w : InstrWord) (start len : Nat) :
    (w.extractLsb' start len).toNat = w.toNat / 2 ^ start % 2 ^ len := by
  rw [BitVec.extractLsb'_toNat, Nat.shiftRight_eq_div_pow]

/-- A slice that ends at bit 31, as a number: the word has nothing above it. -/
theorem toNat_topSlice (w : InstrWord) {start len : Nat} (htop : start + len = 32) :
    (w.extractLsb' start len).toNat = w.toNat / 2 ^ start := by
  rw [toNat_slice, Nat.mod_eq_of_lt]
  exact Nat.div_lt_of_lt_mul (by rw [← Nat.pow_add, htop]; exact w.isLt)

/-- A slice that ends at bit 31, as a signed number: bit 31 is its sign. -/
theorem toInt_topSlice (w : InstrWord) {start len : Nat} (htop : start + len = 32) (hlen : 0 < len) :
    (w.extractLsb' start len).toInt =
      ((w.toNat / 2 ^ start : Nat) : Int) - (if w.getLsbD 31 then 2 ^ len else 0) := by
  have hlast : start + (len - 1) = 31 := by omega
  have hsign : (w.extractLsb' start len).msb = w.getLsbD 31 := by
    rw [BitVec.msb_eq_getLsbD_last, BitVec.getLsbD_extractLsb', hlast]
    simp [hlen]
  rw [BitVec.toInt_eq_msb_cond, hsign, toNat_topSlice w htop]
  split <;> simp

/-- Bit 31 alone, as a signed number. -/
theorem toInt_signBit (w : InstrWord) : (w.extractLsb' 31 1).toInt = if w.getLsbD 31 then -1 else 0 := by
  rw [BitVec.getLsbD_eq_extractLsb']
  rcases BitVec.eq_zero_or_eq_one (w.extractLsb' 31 1) with h | h <;> rw [h] <;> decide

/-- Settles O5: each field is a slice, and csr's ends at bit 31. -/
theorem fieldsAreTheirBitRanges : Obligations.FieldsAreTheirBitRanges := by
  intro w
  have hopcode : (fieldOpcode w).toNat = w.toNat / 2 ^ 0 % 2 ^ 7 := toNat_slice w 0 7
  exact ⟨hopcode.trans (by rw [Nat.pow_zero, Nat.div_one]), toNat_slice w 7 5, toNat_slice w 12 3, toNat_slice w 15 5,
    toNat_slice w 20 5, toNat_topSlice w rfl⟩

end Sys2Proof
end

section
/-! SUPPORT. The classifier: what it reads for each of its answers, the mask and match table as its equal, and what the
decoder reads in each class (spec/30_encoding.md R75 to R78). -/

namespace Sys2Proof

/-- Words with one opcode and one funct3 have one class: the classifier reads nothing else (R76). -/
theorem classify_congr {w w' : InstrWord} (hopcode : fieldOpcode w' = fieldOpcode w)
    (hfunct3 : fieldFunct3 w' = fieldFunct3 w) : classify w' = classify w := by
  rw [classify, hopcode, hfunct3, classify]

/-- Everything the classifier can answer, with what it has then read (R75). -/
theorem classify_cases (w : InstrWord) :
    (fieldOpcode w = 0b0010111#7 ∧ classify w = .auipc) ∨
    (fieldOpcode w = 0b1101111#7 ∧ classify w = .jal) ∨
    (fieldOpcode w = 0b0010011#7 ∧ fieldFunct3 w = 0b000#3 ∧ classify w = .addi) ∨
    (fieldOpcode w = 0b1100011#7 ∧ fieldFunct3 w = 0b001#3 ∧ classify w = .bne) ∨
    (fieldOpcode w = 0b1110011#7 ∧ fieldFunct3 w = 0b001#3 ∧ classify w = .csrrw) ∨
    (fieldOpcode w = 0b1110011#7 ∧ fieldFunct3 w = 0b010#3 ∧ classify w = .csrrs) ∨
    (fieldOpcode w = 0b1110011#7 ∧ fieldFunct3 w = 0b101#3 ∧ classify w = .csrrwi) ∨
    (classify w = .unimplemented ∧ fieldOpcode w ≠ 0b0010111#7 ∧ fieldOpcode w ≠ 0b1101111#7 ∧
      ¬ (fieldOpcode w = 0b0010011#7 ∧ fieldFunct3 w = 0b000#3) ∧
      ¬ (fieldOpcode w = 0b1100011#7 ∧ fieldFunct3 w = 0b001#3) ∧
      ¬ (fieldOpcode w = 0b1110011#7 ∧ fieldFunct3 w = 0b001#3) ∧
      ¬ (fieldOpcode w = 0b1110011#7 ∧ fieldFunct3 w = 0b010#3) ∧
      ¬ (fieldOpcode w = 0b1110011#7 ∧ fieldFunct3 w = 0b101#3)) := by
  unfold classify
  split <;> simp_all

/-- Settles O3: each answer of the classifier fixes which rows' opcode and funct3 the word has. -/
theorem classifyReadsOpcodeAndFunct3 : Obligations.ClassifyReadsOpcodeAndFunct3 := by
  intro w
  have hcongr (w' : InstrWord) : fieldOpcode w' = fieldOpcode w → fieldFunct3 w' = fieldFunct3 w →
      classify w' = classify w := classify_congr
  rcases classify_cases w with ⟨hop, hc⟩ | ⟨hop, hc⟩ | ⟨hop, hf, hc⟩ | ⟨hop, hf, hc⟩ | ⟨hop, hf, hc⟩ |
    ⟨hop, hf, hc⟩ | ⟨hop, hf, hc⟩ | ⟨hc, hnone⟩
  all_goals simp_all

/-! ## The mask and match table (R77) -/

/-- The word that has `funct3` and `opcode` in their places and 0 elsewhere. -/
def opcodeFunct3Word (funct3 : BitVec 3) (opcode : BitVec 7) : InstrWord := 0#17 ++ funct3 ++ 0#5 ++ opcode

theorem fieldOpcode_opcodeFunct3Word (funct3 : BitVec 3) (opcode : BitVec 7) :
    fieldOpcode (opcodeFunct3Word funct3 opcode) = opcode := BitVec.extractLsb'_append_eq_right

theorem fieldFunct3_opcodeFunct3Word (funct3 : BitVec 3) (opcode : BitVec 7) :
    fieldFunct3 (opcodeFunct3Word funct3 opcode) = funct3 := by
  unfold fieldFunct3 opcodeFunct3Word
  simp (disch := decide) only [BitVec.extractLsb'_append_eq_of_le, Nat.reduceSub, BitVec.extractLsb'_append_eq_right]

/-- The mask of AUIPC's and JAL's rows keeps the opcode alone. -/
theorem and_opcodeMask (w : InstrWord) : w &&& 0x0000007F#32 = 0#25 ++ fieldOpcode w :=
  calc w &&& 0x0000007F#32
    _ = (w.extractLsb' 7 25 ++ w.extractLsb' 0 7) &&& (0#25 ++ BitVec.allOnes 7) :=
      congrArg (· &&& 0x0000007F#32) (BitVec.extractLsb'_append_extractLsb' (w := 25) (len := 7) (x := w)).symm
    _ = 0#25 ++ fieldOpcode w := by rw [BitVec.and_append, BitVec.and_zero, BitVec.and_allOnes, fieldOpcode]

/-- The mask of the other rows keeps funct3 and the opcode. -/
theorem and_opcodeFunct3Mask (w : InstrWord) :
    w &&& 0x0000707F#32 = opcodeFunct3Word (fieldFunct3 w) (fieldOpcode w) := by
  have hparts : w.extractLsb' 15 17 ++ w.extractLsb' 12 3 ++ w.extractLsb' 7 5 ++ w.extractLsb' 0 7 = w := by
    simp only [BitVec.extractLsb'_append_extractLsb'_eq_extractLsb', BitVec.extractLsb'_eq_self]
  calc w &&& 0x0000707F#32
    _ = (w.extractLsb' 15 17 ++ w.extractLsb' 12 3 ++ w.extractLsb' 7 5 ++ w.extractLsb' 0 7) &&&
        (0#17 ++ BitVec.allOnes 3 ++ 0#5 ++ BitVec.allOnes 7) := congrArg (· &&& 0x0000707F#32) hparts.symm
    _ = opcodeFunct3Word (fieldFunct3 w) (fieldOpcode w) := by
      simp only [BitVec.and_append, BitVec.and_zero, BitVec.and_allOnes, opcodeFunct3Word, fieldFunct3, fieldOpcode]

/-- A row with the opcode's mask accepts the words of its opcode. -/
theorem accepts_opcode_iff (t : InstructionType) (w : InstrWord) (opcode : BitVec 7) :
    OpcodeRow.accepts ⟨t, 0x0000007F#32, 0#25 ++ opcode⟩ w = true ↔ fieldOpcode w = opcode := by
  rw [OpcodeRow.accepts, beq_iff_eq, and_opcodeMask, BitVec.append_right_inj]

/-- A row with the mask of opcode and funct3 accepts the words of its opcode and funct3. -/
theorem accepts_opcode_funct3_iff (t : InstructionType) (w : InstrWord) (funct3 : BitVec 3) (opcode : BitVec 7) :
    OpcodeRow.accepts ⟨t, 0x0000707F#32, opcodeFunct3Word funct3 opcode⟩ w = true ↔
      fieldOpcode w = opcode ∧ fieldFunct3 w = funct3 := by
  rw [OpcodeRow.accepts, beq_iff_eq, and_opcodeFunct3Mask]
  constructor
  · intro h
    have hop := congrArg fieldOpcode h
    have hf := congrArg fieldFunct3 h
    rw [fieldOpcode_opcodeFunct3Word, fieldOpcode_opcodeFunct3Word] at hop
    rw [fieldFunct3_opcodeFunct3Word, fieldFunct3_opcodeFunct3Word] at hf
    exact ⟨hop, hf⟩
  · rintro ⟨rfl, rfl⟩
    rfl

/-- Each row accepts exactly the words of its class. -/
theorem opcodeRow_accepts_iff (w : InstrWord) :
    ∀ row ∈ opcodeTable, (row.accepts w = true ↔ classify w = row.itype) := by
  obtain ⟨hauipc, hjal, haddi, hbne, hcsrrw, hcsrrs, hcsrrwi, -, -⟩ := classifyReadsOpcodeAndFunct3 w
  simp only [opcodeTable, List.forall_mem_cons]
  exact ⟨(accepts_opcode_iff _ w 0b0010111#7).trans hauipc.symm,
    (accepts_opcode_iff _ w 0b1101111#7).trans hjal.symm,
    (accepts_opcode_funct3_iff _ w 0b000#3 0b0010011#7).trans haddi.symm,
    (accepts_opcode_funct3_iff _ w 0b001#3 0b1100011#7).trans hbne.symm,
    (accepts_opcode_funct3_iff _ w 0b001#3 0b1110011#7).trans hcsrrw.symm,
    (accepts_opcode_funct3_iff _ w 0b010#3 0b1110011#7).trans hcsrrs.symm,
    (accepts_opcode_funct3_iff _ w 0b101#3 0b1110011#7).trans hcsrrwi.symm,
    List.forall_mem_nil _⟩

/-- Every class but Unimplemented has a row. -/
theorem eq_unimplemented_iff (t : InstructionType) : t = .unimplemented ↔ ∀ row ∈ opcodeTable, t ≠ row.itype := by
  cases t <;> decide

/-- No class has two rows. -/
theorem opcodeTable_itype_inj : ∀ row ∈ opcodeTable, ∀ row' ∈ opcodeTable, row.itype = row'.itype → row = row' := by
  decide

/-- Settles O4: a row accepts a word exactly when it is the one row of the word's class. -/
theorem opcodeTableClassifies : Obligations.OpcodeTableClassifies := by
  refine ⟨opcodeRow_accepts_iff, fun w => ?_, fun w row hrow row' hrow' h h' => ?_⟩
  · rw [eq_unimplemented_iff]
    refine forall₂_congr fun row hrow => ?_
    rw [Ne, ← opcodeRow_accepts_iff w row hrow, Bool.not_eq_true]
  · have hclass := (opcodeRow_accepts_iff w row hrow).mp h
    have hclass' := (opcodeRow_accepts_iff w row' hrow').mp h'
    exact opcodeTable_itype_inj row hrow row' hrow' (hclass.symm.trans hclass')

/-! ## The decoder, class by class (R63) -/

section

variable {w : InstrWord}

theorem decode_of_auipc (h : classify w = .auipc) : decode w = .ok (.auipc (fieldRd w) (immU w)) := by
  simp only [decode, h]
theorem decode_of_jal (h : classify w = .jal) : decode w = .ok (.jal (fieldRd w) (immJ w)) := by
  simp only [decode, h]
theorem decode_of_addi (h : classify w = .addi) : decode w = .ok (.addi (fieldRd w) (fieldRs1 w) (immI w)) := by
  simp only [decode, h]
theorem decode_of_bne (h : classify w = .bne) : decode w = .ok (.bne (fieldRs1 w) (fieldRs2 w) (immB w)) := by
  simp only [decode, h]
theorem decode_of_csrrw (h : classify w = .csrrw) :
    decode w = .ok (.csrrw (fieldRd w) (fieldCsr w) (fieldRs1 w)) := by
  simp only [decode, h]
theorem decode_of_csrrs (h : classify w = .csrrs) :
    decode w = .ok (.csrrs (fieldRd w) (fieldCsr w) (fieldRs1 w)) := by
  simp only [decode, h]
theorem decode_of_csrrwi (h : classify w = .csrrwi) :
    decode w = .ok (.csrrwi (fieldRd w) (fieldCsr w) (immUimm w)) := by
  simp only [decode, h]
theorem decode_of_unimplemented (h : classify w = .unimplemented) : decode w = .error (.unimplemented w) := by
  simp only [decode, h]

end

/-- Settles O15: an Unimplemented word does not decode. -/
theorem unimplementedWordsFail : Obligations.UnimplementedWordsFail := by
  refine ⟨fun s w hlive hfetch hclass => ?_, by decide, by decide⟩
  exact Machine.step_of_decode_error hlive hfetch (decode_of_unimplemented hclass)

end Sys2Proof
end

section
/-! SUPPORT. The immediates: the numbers they are, their ranges, and reading back a placed one (spec/30_encoding.md R64 to
R70). -/

namespace Sys2Proof

/-! ## Values and ranges (R64 to R69) -/

/-- immU is its twenty bits as a signed number, times 4096. -/
theorem immU_eq (w : InstrWord) : immU w = 2 ^ 12 * (w.extractLsb' 12 20).toInt := BitVec.toInt_append_zero

theorem wellFormedU_immU (w : InstrWord) : WellFormedU (immU w) := by
  have hlow := (w.extractLsb' 12 20).le_toInt
  have hhigh := (w.extractLsb' 12 20).toInt_lt
  rw [immU_eq]
  omega

theorem wellFormedI_immI (w : InstrWord) : WellFormedI (immI w) := by
  have hlow : -2 ^ 11 ≤ immI w := BitVec.le_toInt _
  have hhigh : immI w < 2 ^ 11 := BitVec.toInt_lt
  omega

theorem wellFormedJ_immJ (w : InstrWord) : WellFormedJ (immJ w) := by
  have hlow : -2 ^ 20 ≤ immJ w := BitVec.le_toInt _
  have hhigh : immJ w < 2 ^ 20 := BitVec.toInt_lt
  have heven := immJ_even w
  omega

theorem wellFormedB_immB (w : InstrWord) : WellFormedB (immB w) := by
  have hlow : -2 ^ 12 ≤ immB w := BitVec.le_toInt _
  have hhigh : immB w < 2 ^ 12 := BitVec.toInt_lt
  have heven := immB_even w
  omega

/-- Settles O6: both signed immediates are made of a slice that ends at bit 31. -/
theorem upperAndShortImmediates : Obligations.UpperAndShortImmediates := by
  intro w
  refine ⟨?_, wellFormedU_immU w, toInt_topSlice w rfl (by decide), wellFormedI_immI w, toNat_slice w 15 5⟩
  rw [immU_eq, toInt_topSlice w rfl (by decide)]
  split <;> omega

/-- Appended vectors as one signed number: the high one carries the sign. -/
theorem toInt_append_eq_add {m k : Nat} (hm : m ≠ 0) (high : BitVec m) (low : BitVec k) :
    (high ++ low).toInt = 2 ^ k * high.toInt + low.toNat := by
  rw [BitVec.toInt_append, if_neg (by simpa using hm)]

/-- Settles O7: each is appended slices, so a sum of their weighted numbers, bit 31 weighing negatively. -/
theorem jumpAndBranchImmediates : Obligations.JumpAndBranchImmediates := by
  intro w
  refine ⟨?_, wellFormedJ_immJ w, ?_, wellFormedB_immB w⟩
  · simp (disch := decide) only [immJ, toInt_append_eq_add, toInt_signBit, toNat_slice]
    push_cast
    split <;> omega
  · simp (disch := decide) only [immB, toInt_append_eq_add, toInt_signBit, toNat_slice]
    push_cast
    split <;> omega

/-- Settles O9: the sign extension of a vector is, by its definition, the register-width value of its signed number. -/
theorem immediatesExtendToXlen : Obligations.ImmediatesExtendToXlen :=
  fun x w => ⟨rfl, rfl, rfl, rfl, BitVec.ofNat_toNat x.bits (w.extractLsb' 15 5)⟩

/-! ## Reading back a placed immediate (R70) -/

/-- A number written as a vector of its own width is read back from it. -/
theorem toFin_ofNat_val {n : Nat} (a : Fin (2 ^ n)) : (BitVec.ofNat n a.val).toFin = a :=
  Fin.ext (Nat.mod_eq_of_lt a.isLt)

/-- A vector whose low bits are 0 is its high bits with zeros appended. -/
theorem highSlice_append_zero {m k : Nat} (x : BitVec (m + k)) (hx : x.toNat % 2 ^ k = 0) :
    x.extractLsb' k m ++ 0#k = x := by
  have hlow : x.extractLsb' 0 k = 0#k := BitVec.eq_of_toNat_eq (by simpa using hx)
  rw [← hlow, BitVec.extractLsb'_append_extractLsb']

theorem immU_of_placed {w : InstrWord} {v : Int} (hv : WellFormedU v)
    (h12 : w.extractLsb' 12 20 = (BitVec.ofInt 32 v).extractLsb' 12 20) : immU w = v := by
  obtain ⟨hlow, hhigh, hmod⟩ := hv
  have hvector : (w.extractLsb' 12 20 ++ 0#12 : BitVec 32) = BitVec.ofInt 32 v := by
    rw [h12]
    exact highSlice_append_zero (m := 20) (k := 12) _ (by rw [BitVec.toNat_ofInt]; omega)
  rw [immU, hvector]
  exact BitVec.toInt_ofInt_eq_self (by decide) hlow (by omega)

theorem immI_of_placed {w : InstrWord} {v : Int} (hv : WellFormedI v)
    (h20 : w.extractLsb' 20 12 = BitVec.ofInt 12 v) : immI w = v := by
  obtain ⟨hlow, hhigh⟩ := hv
  rw [immI, h20]
  exact BitVec.toInt_ofInt_eq_self (by decide) hlow (by omega)

theorem immJ_of_placed {w : InstrWord} {v : Int} (hv : WellFormedJ v)
    (h31 : w.extractLsb' 31 1 = (BitVec.ofInt 21 v).extractLsb' 20 1)
    (h21 : w.extractLsb' 21 10 = (BitVec.ofInt 21 v).extractLsb' 1 10)
    (h20 : w.extractLsb' 20 1 = (BitVec.ofInt 21 v).extractLsb' 11 1)
    (h12 : w.extractLsb' 12 8 = (BitVec.ofInt 21 v).extractLsb' 12 8) : immJ w = v := by
  obtain ⟨hlow, hhigh, hmod⟩ := hv
  have hvector : (w.extractLsb' 31 1 ++ w.extractLsb' 12 8 ++ w.extractLsb' 20 1 ++ w.extractLsb' 21 10 ++ 0#1
      : BitVec 21) = BitVec.ofInt 21 v := by
    rw [h31, h21, h20, h12]
    simp only [BitVec.extractLsb'_append_extractLsb'_eq_extractLsb']
    exact highSlice_append_zero (m := 20) (k := 1) _ (by rw [BitVec.toNat_ofInt]; omega)
  rw [immJ, hvector]
  exact BitVec.toInt_ofInt_eq_self (by decide) hlow (by omega)

theorem immB_of_placed {w : InstrWord} {v : Int} (hv : WellFormedB v)
    (h31 : w.extractLsb' 31 1 = (BitVec.ofInt 13 v).extractLsb' 12 1)
    (h25 : w.extractLsb' 25 6 = (BitVec.ofInt 13 v).extractLsb' 5 6)
    (h8 : w.extractLsb' 8 4 = (BitVec.ofInt 13 v).extractLsb' 1 4)
    (h7 : w.extractLsb' 7 1 = (BitVec.ofInt 13 v).extractLsb' 11 1) : immB w = v := by
  obtain ⟨hlow, hhigh, hmod⟩ := hv
  have hvector : (w.extractLsb' 31 1 ++ w.extractLsb' 7 1 ++ w.extractLsb' 25 6 ++ w.extractLsb' 8 4 ++ 0#1
      : BitVec 13) = BitVec.ofInt 13 v := by
    rw [h31, h25, h8, h7]
    simp only [BitVec.extractLsb'_append_extractLsb'_eq_extractLsb']
    exact highSlice_append_zero (m := 12) (k := 1) _ (by rw [BitVec.toNat_ofInt]; omega)
  rw [immB, hvector]
  exact BitVec.toInt_ofInt_eq_self (by decide) hlow (by omega)

theorem immUimm_of_placed {w : InstrWord} {u : Uimm} (h15 : w.extractLsb' 15 5 = BitVec.ofNat 5 u.val) :
    immUimm w = u :=
  (congrArg BitVec.toFin h15).trans (toFin_ofNat_val (n := 5) u)

/-- Settles O8: the placed slices, put together with the zeros below them, are the immediate's vector. -/
theorem placedImmediatesReadBack : Obligations.PlacedImmediatesReadBack :=
  fun _ _ => ⟨immU_of_placed, immI_of_placed, immJ_of_placed, immB_of_placed, fun _ => immUimm_of_placed⟩

end Sys2Proof
end

section
/-! SUPPORT. Decode and encode agree: each format's parts are slices of its word, and a word is its format's parts put
together (spec/30_encoding.md R63, R70). -/

namespace Sys2Proof

/-! ## The parts of an encoded word -/

theorem toFin_regBits (r : RegIdx) : (regBits r).toFin = r := toFin_ofNat_val (n := 5) r

theorem slice_encodeUpper (imm : BitVec 20) (rd : RegIdx) (opcode : BitVec 7) {start len : Nat} (h : 12 ≤ start) :
    (encodeUpper imm rd opcode).extractLsb' start len = imm.extractLsb' (start - 12) len := by
  unfold encodeUpper
  rw [BitVec.extractLsb'_append_eq_of_le (by omega), BitVec.extractLsb'_append_eq_of_le (by omega), Nat.sub_sub]

theorem fieldRd_encodeUpper (imm : BitVec 20) (rd : RegIdx) (opcode : BitVec 7) :
    fieldRd (encodeUpper imm rd opcode) = rd := by
  unfold fieldRd encodeUpper
  simp (disch := decide) only [BitVec.extractLsb'_append_eq_of_le, Nat.reduceSub, BitVec.extractLsb'_append_eq_right,
    toFin_regBits]

theorem immU_encodeUpper {v : Int} (rd : RegIdx) (opcode : BitVec 7) (hv : WellFormedU v) :
    immU (encodeUpper (placeU v) rd opcode) = v := by
  apply immU_of_placed hv
  rw [slice_encodeUpper _ _ _ (Nat.le_refl 12)]
  exact BitVec.extractLsb'_eq_self

theorem immJ_encodeUpper {v : Int} (rd : RegIdx) (opcode : BitVec 7) (hv : WellFormedJ v) :
    immJ (encodeUpper (placeJ v) rd opcode) = v := by
  refine immJ_of_placed hv ?_ ?_ ?_ ?_
  all_goals
    rw [slice_encodeUpper _ _ _ (by decide), placeJ]
    simp (disch := decide) only [BitVec.extractLsb'_append_eq_of_le, BitVec.extractLsb'_append_eq_of_add_le, Nat.reduceSub,
      BitVec.extractLsb'_eq_self]

section

variable (high : BitVec 12) (rs1 : BitVec 5) (funct3 : BitVec 3) (rd : RegIdx) (opcode : BitVec 7)

theorem fieldRd_encodeI : fieldRd (encodeI high rs1 funct3 rd opcode) = rd := by
  unfold fieldRd encodeI
  simp (disch := decide) only [BitVec.extractLsb'_append_eq_of_le, Nat.reduceSub, BitVec.extractLsb'_append_eq_right,
    toFin_regBits]

theorem slice_rs1_encodeI : (encodeI high rs1 funct3 rd opcode).extractLsb' 15 5 = rs1 := by
  unfold encodeI
  simp (disch := decide) only [BitVec.extractLsb'_append_eq_of_le, Nat.reduceSub, BitVec.extractLsb'_append_eq_right]

theorem slice_high_encodeI : (encodeI high rs1 funct3 rd opcode).extractLsb' 20 12 = high := by
  unfold encodeI
  simp (disch := decide) only [BitVec.extractLsb'_append_eq_of_le, Nat.reduceSub, BitVec.extractLsb'_eq_self]

theorem fieldRs1_encodeI (r : RegIdx) : fieldRs1 (encodeI high (regBits r) funct3 rd opcode) = r := by
  rw [fieldRs1, slice_rs1_encodeI, toFin_regBits]

theorem immUimm_encodeI (u : Uimm) : immUimm (encodeI high (BitVec.ofNat 5 u.val) funct3 rd opcode) = u :=
  immUimm_of_placed (slice_rs1_encodeI ..)

theorem fieldCsr_encodeI (a : CsrAddr) : fieldCsr (encodeI (BitVec.ofNat 12 a.val) rs1 funct3 rd opcode) = a := by
  rw [fieldCsr, slice_high_encodeI]
  exact toFin_ofNat_val (n := 12) a

theorem immI_encodeI {v : Int} (hv : WellFormedI v) : immI (encodeI (BitVec.ofInt 12 v) rs1 funct3 rd opcode) = v :=
  immI_of_placed hv (slice_high_encodeI ..)

end

section

variable (imm : Int) (rs1 rs2 : RegIdx) (funct3 : BitVec 3) (opcode : BitVec 7)

theorem fieldRs1_encodeB : fieldRs1 (encodeB imm rs1 rs2 funct3 opcode) = rs1 := by
  unfold fieldRs1 encodeB
  simp (disch := decide) only [BitVec.extractLsb'_append_eq_of_le, Nat.reduceSub, BitVec.extractLsb'_append_eq_right,
    toFin_regBits]

theorem fieldRs2_encodeB : fieldRs2 (encodeB imm rs1 rs2 funct3 opcode) = rs2 := by
  unfold fieldRs2 encodeB
  simp (disch := decide) only [BitVec.extractLsb'_append_eq_of_le, Nat.reduceSub, BitVec.extractLsb'_append_eq_right,
    toFin_regBits]

theorem slice_high_encodeB {start len : Nat} (h : 25 ≤ start) :
    (encodeB imm rs1 rs2 funct3 opcode).extractLsb' start len = (placeBHigh imm).extractLsb' (start - 25) len := by
  unfold encodeB
  rw [BitVec.extractLsb'_append_eq_of_le (by omega), BitVec.extractLsb'_append_eq_of_le (by omega),
    BitVec.extractLsb'_append_eq_of_le (by omega), BitVec.extractLsb'_append_eq_of_le (by omega),
    BitVec.extractLsb'_append_eq_of_le (by omega)]
  simp only [Nat.sub_sub, Nat.reduceAdd]

theorem slice_low_encodeB {start len : Nat} (h : 7 ≤ start) (hlen : start - 7 + len ≤ 5) :
    (encodeB imm rs1 rs2 funct3 opcode).extractLsb' start len = (placeBLow imm).extractLsb' (start - 7) len := by
  unfold encodeB
  rw [BitVec.extractLsb'_append_eq_of_le h, BitVec.extractLsb'_append_eq_of_add_le hlen]

theorem immB_encodeB (hv : WellFormedB imm) : immB (encodeB imm rs1 rs2 funct3 opcode) = imm := by
  refine immB_of_placed hv ?_ ?_ ?_ ?_
  · rw [slice_high_encodeB _ _ _ _ _ (by decide), placeBHigh, BitVec.extractLsb'_append_eq_of_le (by decide)]
    exact BitVec.extractLsb'_eq_self
  · rw [slice_high_encodeB _ _ _ _ _ (by decide), placeBHigh]
    exact BitVec.extractLsb'_append_eq_right
  · rw [slice_low_encodeB _ _ _ _ _ (by decide) (by decide), placeBLow, BitVec.extractLsb'_append_eq_of_le (by decide)]
    exact BitVec.extractLsb'_eq_self
  · rw [slice_low_encodeB _ _ _ _ _ (by decide) (by decide), placeBLow]
    exact BitVec.extractLsb'_append_eq_right

end

/-- A well-formed instruction is read back from its word: its class is its own, and so is each operand. -/
theorem decode_encode {i : Instr} (h : wellFormed i = true) : decode (encode i) = .ok i := by
  cases i with
  | auipc rd imm =>
    rw [decode_of_auipc (Laws.EncodedClass.auipc rd imm), encode, fieldRd_encodeUpper,
      immU_encodeUpper _ _ (of_decide_eq_true h)]
  | jal rd imm =>
    rw [decode_of_jal (Laws.EncodedClass.jal rd imm), encode, fieldRd_encodeUpper,
      immJ_encodeUpper _ _ (of_decide_eq_true h)]
  | addi rd rs1 imm =>
    rw [decode_of_addi (Laws.EncodedClass.addi rd rs1 imm), encode, fieldRd_encodeI, fieldRs1_encodeI,
      immI_encodeI _ _ _ _ (of_decide_eq_true h)]
  | bne rs1 rs2 imm =>
    rw [decode_of_bne (Laws.EncodedClass.bne rs1 rs2 imm), encode, fieldRs1_encodeB, fieldRs2_encodeB,
      immB_encodeB _ _ _ _ _ (of_decide_eq_true h)]
  | csrrw rd csr rs1 =>
    rw [decode_of_csrrw (Laws.EncodedClass.csrrw rd csr rs1), encode, fieldRd_encodeI, fieldCsr_encodeI, fieldRs1_encodeI]
  | csrrs rd csr rs1 =>
    rw [decode_of_csrrs (Laws.EncodedClass.csrrs rd csr rs1), encode, fieldRd_encodeI, fieldCsr_encodeI, fieldRs1_encodeI]
  | csrrwi rd csr uimm =>
    rw [decode_of_csrrwi (Laws.EncodedClass.csrrwi rd csr uimm), encode, fieldRd_encodeI, fieldCsr_encodeI,
      immUimm_encodeI]

/-- The bytes of a word that decodes are its instruction with no byte left over (20_memory.md R46). -/
theorem decodeBytes_bytesOfWord {w : InstrWord} {i : Instr} (h : decode w = .ok i) :
    decodeBytes (bytesOfWord w) = .ok (i, []) := by
  simp only [decodeBytes, bytesOfWord, Machine.wordOfBytes_bytesOfWord, h]

/-- Settles O1: every operand is read back from the word, and the word from its bytes. -/
theorem decodeInvertsEncode : Obligations.DecodeInvertsEncode :=
  fun _ h => ⟨decode_encode h, decodeBytes_bytesOfWord (decode_encode h)⟩

/-! ## A word is its parts put together -/

section

variable (w : InstrWord)

theorem regBits_toFin (b : BitVec 5) : regBits b.toFin = b := (BitVec.ofNat_toNat 5 b).trans (BitVec.setWidth_eq b)

theorem ofNat_fieldCsr : BitVec.ofNat 12 (fieldCsr w).val = w.extractLsb' 20 12 :=
  (BitVec.ofNat_toNat 12 (w.extractLsb' 20 12)).trans (BitVec.setWidth_eq _)

theorem placeU_immU : placeU (immU w) = w.extractLsb' 12 20 := by
  rw [placeU, immU, BitVec.ofInt_toInt]
  exact BitVec.extractLsb'_append_eq_left

theorem placeJ_immJ : placeJ (immJ w) = w.extractLsb' 12 20 := by
  rw [placeJ, immJ, BitVec.ofInt_toInt]
  simp (disch := decide) only [BitVec.extractLsb'_append_eq_of_le, BitVec.extractLsb'_append_eq_of_add_le, Nat.reduceSub,
    BitVec.extractLsb'_eq_self, BitVec.extractLsb'_append_extractLsb'_eq_extractLsb']

theorem placeBHigh_immB : placeBHigh (immB w) = w.extractLsb' 25 7 := by
  rw [placeBHigh, immB, BitVec.ofInt_toInt]
  simp (disch := decide) only [BitVec.extractLsb'_append_eq_of_le, BitVec.extractLsb'_append_eq_of_add_le, Nat.reduceSub,
    BitVec.extractLsb'_eq_self, BitVec.extractLsb'_append_extractLsb'_eq_extractLsb']

theorem placeBLow_immB : placeBLow (immB w) = w.extractLsb' 7 5 := by
  rw [placeBLow, immB, BitVec.ofInt_toInt]
  simp (disch := decide) only [BitVec.extractLsb'_append_eq_of_le, BitVec.extractLsb'_append_eq_of_add_le, Nat.reduceSub,
    BitVec.extractLsb'_eq_self, BitVec.extractLsb'_append_extractLsb'_eq_extractLsb']

theorem encodeUpper_parts : encodeUpper (w.extractLsb' 12 20) (fieldRd w) (fieldOpcode w) = w := by
  rw [encodeUpper, fieldRd, regBits_toFin, fieldOpcode]
  simp only [BitVec.extractLsb'_append_extractLsb'_eq_extractLsb', BitVec.extractLsb'_eq_self]

theorem encodeI_parts :
    encodeI (w.extractLsb' 20 12) (w.extractLsb' 15 5) (fieldFunct3 w) (fieldRd w) (fieldOpcode w) = w := by
  rw [encodeI, fieldRd, regBits_toFin, fieldOpcode, fieldFunct3]
  simp only [BitVec.extractLsb'_append_extractLsb'_eq_extractLsb', BitVec.extractLsb'_eq_self]

theorem encodeB_parts : encodeB (immB w) (fieldRs1 w) (fieldRs2 w) (fieldFunct3 w) (fieldOpcode w) = w := by
  rw [encodeB, placeBHigh_immB, placeBLow_immB, fieldRs1, fieldRs2, regBits_toFin, regBits_toFin, fieldOpcode, fieldFunct3]
  simp only [BitVec.extractLsb'_append_extractLsb'_eq_extractLsb', BitVec.extractLsb'_eq_self]

end

/-- Settles O2: opcode and funct3 are fixed by the class, every other bit of the word is an operand's, and an immediate
read is in its range. -/
theorem encodeInvertsDecode : Obligations.EncodeInvertsDecode := by
  intro w i h
  have hrs1 : regBits (fieldRs1 w) = w.extractLsb' 15 5 := regBits_toFin _
  have huimm : BitVec.ofNat 5 (immUimm w).val = w.extractLsb' 15 5 := regBits_toFin _
  have himmI : BitVec.ofInt 12 (immI w) = w.extractLsb' 20 12 := BitVec.ofInt_toInt
  rcases classify_cases w with ⟨hop, hc⟩ | ⟨hop, hc⟩ | ⟨hop, hf, hc⟩ | ⟨hop, hf, hc⟩ | ⟨hop, hf, hc⟩ |
    ⟨hop, hf, hc⟩ | ⟨hop, hf, hc⟩ | ⟨hc, -⟩
  · cases (decode_of_auipc hc).symm.trans h
    exact ⟨decide_eq_true (wellFormedU_immU w), by rw [encode, placeU_immU, ← hop, encodeUpper_parts]⟩
  · cases (decode_of_jal hc).symm.trans h
    exact ⟨decide_eq_true (wellFormedJ_immJ w), by rw [encode, placeJ_immJ, ← hop, encodeUpper_parts]⟩
  · cases (decode_of_addi hc).symm.trans h
    exact ⟨decide_eq_true (wellFormedI_immI w), by rw [encode, himmI, hrs1, ← hf, ← hop, encodeI_parts]⟩
  · cases (decode_of_bne hc).symm.trans h
    exact ⟨decide_eq_true (wellFormedB_immB w), by rw [encode, ← hf, ← hop, encodeB_parts]⟩
  · cases (decode_of_csrrw hc).symm.trans h
    exact ⟨rfl, by rw [encode, ofNat_fieldCsr, hrs1, ← hf, ← hop, encodeI_parts]⟩
  · cases (decode_of_csrrs hc).symm.trans h
    exact ⟨rfl, by rw [encode, ofNat_fieldCsr, hrs1, ← hf, ← hop, encodeI_parts]⟩
  · cases (decode_of_csrrwi hc).symm.trans h
    exact ⟨rfl, by rw [encode, ofNat_fieldCsr, huimm, ← hf, ← hop, encodeI_parts]⟩
  · cases (decode_of_unimplemented hc).symm.trans h

end Sys2Proof
end

section
/-! SUPPORT. When a step completes, which instruction it runs, and where it leaves the pc (spec/40_engine.md R91, R93, R98;
spec/44_csr.md R140). -/

namespace Sys2Proof

/-- Four bytes decode to an instruction with no byte left over exactly when their word does. -/
theorem decodeBytes_four_eq_ok {b0 b1 b2 b3 : Byte} {i : Instr} :
    decodeBytes [b0, b1, b2, b3] = .ok (i, []) ↔ decode (wordOfBytes b0 b1 b2 b3) = .ok i := by
  cases h : decode (wordOfBytes b0 b1 b2 b3) <;> simp [decodeBytes, h]

/-- A word decodes exactly when it is one of the seven (30_encoding.md R75). -/
theorem decode_eq_ok_iff {w : InstrWord} : (∃ i, decode w = .ok i) ↔ classify w ≠ .unimplemented := by
  unfold decode
  cases classify w <;> simp

/-- The CSR instructions name the word's csr field, and no other instruction names a CSR (44_csr.md R140). -/
theorem csr?_of_decode {w : InstrWord} {i : Instr} (h : decode w = .ok i) (a : CsrAddr) :
    i.csr? = some a ↔ (classify w = .csrrw ∨ classify w = .csrrs ∨ classify w = .csrrwi) ∧ fieldCsr w = a := by
  unfold decode at h
  cases hc : classify w <;> rw [hc] at h <;> cases h <;> simp [Instr.csr?]

namespace Machine

/-- An instruction completes exactly when the CSR it names, if it names one, is present (44_csr.md R140). -/
theorem exec_completes_iff (i : Instr) (s : State) :
    (∃ t, exec i s = .next t) ↔ ∀ a, i.csr? = some a → csrPresent s.params a = true := by
  rcases exec_cases i s with ⟨e, he, -, -, hpresent⟩ | ⟨a, ha, habsent, he⟩
  · exact ⟨fun _ => hpresent, fun _ => ⟨_, he⟩⟩
  · refine ⟨fun ⟨t, ht⟩ => ?_, fun hpresent => ?_⟩
    · cases he.symm.trans ht
    · exact absurd (hpresent a ha) (by simp [habsent])

/-- Only a live machine's step is not refused (70_reset_and_hazards.md R188). -/
theorem live_of_step_ne_refused {s : State} (h : step s ≠ .refused .defunctMachine) : s.status = .live := by
  cases hs : s.status with
  | live => rfl
  | defunct => exact absurd (step_of_defunct hs) h

/-- No step of a live machine is refused (60_exceptions.md R163). -/
theorem step_ne_refused {s : State} (hlive : s.status = .live) (r : Refusal) : step s ≠ .refused r := by
  intro h
  rcases step_cases s with ⟨hdefunct, -⟩ | ⟨-, -, he⟩ | ⟨w, e, -, -, -, he⟩ | ⟨w, i, -, -, -, he⟩
  · cases hlive.symm.trans hdefunct
  · cases he.symm.trans h
  · cases he.symm.trans h
  · rcases exec_cases i s with ⟨e, hx, -⟩ | ⟨a, -, -, hx⟩
    · cases (he.trans hx).symm.trans h
    · cases (he.trans hx).symm.trans h

/-- A completed step leaves the status as it was. -/
theorem step_status {s t : State} (h : step s = .next t) : t.status = s.status := by
  obtain ⟨w, i, -, -, hexec⟩ := step_eq_next h
  obtain ⟨e, rfl, -⟩ := exec_eq_next hexec
  exact s.commit_status e

/-- Settles O17: a step gets as far as EXECUTE when the fetched word decodes, and EXECUTE completes when the CSR is there. -/
theorem stepCompletesExactly : Obligations.StepCompletesExactly := by
  intro s
  constructor
  · rintro ⟨t, h⟩
    obtain ⟨w, i, hfetch, hdecode, hexec⟩ := step_eq_next h
    have hpresent := (exec_completes_iff i s).mp ⟨t, hexec⟩
    exact ⟨live_of_step_ne_refused (by simp [h]), w, hfetch, decode_eq_ok_iff.mp ⟨i, hdecode⟩,
      fun hclass => hpresent _ ((csr?_of_decode hdecode _).mpr ⟨hclass, rfl⟩)⟩
  · rintro ⟨hlive, w, hfetch, himplemented, hpresent⟩
    obtain ⟨i, hdecode⟩ := decode_eq_ok_iff.mpr himplemented
    rw [State.Completes, step_of_decode_ok hlive hfetch hdecode, exec_completes_iff]
    intro a ha
    obtain ⟨hclass, rfl⟩ := (csr?_of_decode hdecode a).mp ha
    exact hpresent hclass

/-- Settles O11: the fetch answers the word of the four bytes, and they decode as their word does. -/
theorem stepRunsTheDecodedInstruction : Obligations.StepRunsTheDecodedInstruction := by
  intro s i hlive hin hdecode
  exact step_of_decode_ok hlive (s.fetch_eq.trans (if_pos hin)) (decodeBytes_four_eq_ok.mp hdecode)

/-! ## The pc (R98) -/

/-- The redirect EXECUTE hands to COMMIT: "Only JAL (always) and BNE (when taken) produce a redirect" (R98). -/
def redirectOf {n : Nat} (h : Hart n) : Instr → Option (BitVec n)
  | .auipc _ _ => none
  | .jal _ imm => some (pcRelative h imm)
  | .addi _ _ _ => none
  | .bne rs1 rs2 imm => if registersDiffer h rs1 rs2 then some (pcRelative h imm) else none
  | .csrrw _ _ _ => none
  | .csrrs _ _ _ => none
  | .csrrwi _ _ _ => none

/-- An instruction that completes has done one COMMIT with its redirect. -/
theorem exec_redirect_eq {i : Instr} {s t : State} (h : exec i s = .next t) :
    ∃ e : Effects s.params.xlen.bits, t = s.commit e ∧ e.redirect = redirectOf s.hart0 i := by
  cases i with
  | auipc rd imm => exact ⟨_, (Host.Outcome.next.inj h).symm, rfl⟩
  | jal rd imm => exact ⟨_, (Host.Outcome.next.inj h).symm, rfl⟩
  | addi rd rs1 imm => exact ⟨_, (Host.Outcome.next.inj h).symm, rfl⟩
  | bne rs1 rs2 imm => exact ⟨_, (Host.Outcome.next.inj h).symm, rfl⟩
  | csrrw rd a rs1 => exact ⟨_, csrAccess_eq_next h, rfl⟩
  | csrrs rd a rs1 => exact ⟨_, csrAccess_eq_next h, rfl⟩
  | csrrwi rd a u => exact ⟨_, csrAccess_eq_next h, rfl⟩

/-- The pc after a BNE: its target when the registers differ (43_branch.md R130). -/
theorem nextPc_bne {n : Nat} (h : Hart n) (rs1 rs2 : RegIdx) (imm : Int) :
    nextPc h.pc (redirectOf h (.bne rs1 rs2 imm)) =
      if h.readX rs1 ≠ h.readX rs2 then pcRelative h imm else h.pc + 4 := by
  by_cases heq : h.readX rs1 = h.readX rs2 <;> simp [redirectOf, registersDiffer, nextPc, heq]

/-- Settles O30: COMMIT sets the pc once, to the instruction's redirect or else past it. -/
theorem pcAfterACompletedStep : Obligations.PcAfterACompletedStep := by
  intro s t h
  obtain ⟨w, i, hfetch, hdecode, hexec⟩ := step_eq_next h
  obtain ⟨e, rfl, hredirect⟩ := exec_redirect_eq hexec
  refine ⟨w, i, s.hart0.commit e, hfetch, hdecode, rfl, ?_⟩
  rw [Hart.commit_pc, hredirect]
  cases i with
  | bne rs1 rs2 imm => exact nextPc_bne s.hart0 rs1 rs2 imm
  | auipc rd imm => rfl
  | jal rd imm => rfl
  | addi rd rs1 imm => rfl
  | csrrw rd a rs1 => rfl
  | csrrs rd a rs1 => rfl
  | csrrwi rd a u => rfl

end Machine
end Sys2Proof
end

section
/-! SUPPORT. Runs: what holds along completed steps, the run loop turn by turn, and how a run ends (spec/40_engine.md R100,
R101, R105). -/

namespace Sys2Proof.Machine

/-- What every completed step keeps holds of every state a run passes through. -/
theorem Steps.keeps {P : State → Prop} (hstep : ∀ s t, P s → step s = .next t → P t) {k : Nat} {s t : State}
    (h : Steps k s t) (hs : P s) : P t := by
  induction h with
  | zero s => exact hs
  | succ _ hlast ih => exact hstep _ _ (ih hs) hlast

theorem Steps.legal {k : Nat} {s t : State} (h : Steps k s t) (hs : s.Legal) : t.Legal := h.keeps stepKeepsLegal hs

/-! ## The run loop -/

section

variable {maxSteps : Option Nat} {watch n : Nat} {s t : State}

theorem runLoop_of_limit (hlimit : maxSteps = some n) : runLoop maxSteps watch n s = .stepLimitReached n s := by
  cases watch <;> rw [runLoop, if_pos hlimit]

/-- A count that has not passed the limit and is not at it is below it. -/
theorem below_limit (hle : ∀ m, maxSteps = some m → n ≤ m) (hlimit : maxSteps ≠ some n) (m : Nat)
    (hm : maxSteps = some m) : n < m :=
  (hle m hm).lt_of_ne fun heq => hlimit (heq ▸ hm)

theorem runLoop_zero (hlimit : maxSteps ≠ some n) : runLoop maxSteps 0 n s = .unfinished n s := by
  rw [runLoop, if_neg hlimit]

theorem runLoop_of_next (hlimit : maxSteps ≠ some n) (h : step s = .next t) :
    runLoop maxSteps (watch + 1) n s = runLoop maxSteps watch (n + 1) t := by
  simp only [runLoop, hlimit, if_false, h]

theorem runLoop_of_fault {f : Fault} (hlimit : maxSteps ≠ some n) (h : step s = .fault f) :
    runLoop maxSteps (watch + 1) n s = .failure f s := by
  simp only [runLoop, hlimit, if_false, h]

end

/-- What it means that a run from `s`, watched for at most `watch` steps, has this outcome: the table of R101, and the run the
model stops watching (log entry 12). -/
def RunOutcome.AsTabled (maxSteps : Option Nat) (watch : Nat) (s : State) : RunOutcome → Prop
  | .failure f t => ∃ k, Steps k s t ∧ step t = .fault f ∧ ∀ m, maxSteps = some m → k < m
  | .stepLimitReached n t => maxSteps = some n ∧ Steps n s t
  | .unfinished n t => n = watch ∧ Steps n s t ∧ ∀ m, maxSteps = some m → n < m
  | .refused _ => False

/-- The invariant of the loop: it stands where `n` completed steps from `s` lead, on a live machine, and `n` is not beyond the
limit. -/
theorem runLoop_asTabled {maxSteps : Option Nat} {n : Nat} {s t : State} (watch : Nat) (hsteps : Steps n s t)
    (hlive : t.status = .live) (hle : ∀ m, maxSteps = some m → n ≤ m) :
    (runLoop maxSteps watch n t).AsTabled maxSteps (n + watch) s := by
  induction watch generalizing n t with
  | zero =>
    by_cases hlimit : maxSteps = some n
    · rw [runLoop_of_limit hlimit]
      exact ⟨hlimit, hsteps⟩
    · rw [runLoop_zero hlimit]
      exact ⟨rfl, hsteps, below_limit hle hlimit⟩
  | succ watch ih =>
    by_cases hlimit : maxSteps = some n
    · rw [runLoop_of_limit hlimit]
      exact ⟨hlimit, hsteps⟩
    cases hstep : step t with
    | next u =>
      rw [runLoop_of_next hlimit hstep, ← Nat.succ_add_eq_add_succ]
      exact ih (hsteps.succ hstep) ((step_status hstep).trans hlive) (below_limit hle hlimit)
    | fault f =>
      rw [runLoop_of_fault hlimit hstep]
      exact ⟨n, hsteps, hstep, below_limit hle hlimit⟩
    | refused r => exact absurd hstep (step_ne_refused hlive r)

/-! ## The run -/

section

variable {o : Options} {watch : Nat} {s t : State}

theorem run_of_live (hlive : s.status = .live) (hhalt : o.haltOnIllegal = true) :
    run o watch s = runLoop o.maxSteps watch 0 s := by
  simp only [run, hlive, hhalt, if_true]

theorem run_of_continue (hlive : s.status = .live) (hcontinue : o.haltOnIllegal = false) :
    run o watch s = .refused .continueOnIllegal := by
  simp [run, hlive, hcontinue]

theorem run_of_defunct (hdefunct : s.status = .defunct) : run o watch s = .refused .defunctMachine := by
  simp only [run, hdefunct]

theorem run_asTabled (hlive : s.status = .live) (hhalt : o.haltOnIllegal = true) :
    (run o watch s).AsTabled o.maxSteps watch s := by
  have h := runLoop_asTabled (maxSteps := o.maxSteps) watch (Steps.zero s) hlive fun m _ => m.zero_le
  rwa [Nat.zero_add, ← run_of_live hlive hhalt] at h

/-- A run is refused, or it ends as tabled (R101, R102, R188). -/
theorem run_cases (o : Options) (watch : Nat) (s : State) :
    (∃ r, run o watch s = .refused r) ∨ (run o watch s).AsTabled o.maxSteps watch s := by
  cases hs : s.status with
  | defunct => exact .inl ⟨_, run_of_defunct hs⟩
  | live =>
    cases hhalt : o.haltOnIllegal with
    | false => exact .inl ⟨_, run_of_continue hs hhalt⟩
    | true => exact .inr (run_asTabled hs hhalt)

/-- A run that fails leaves the state whose next step has that failure. -/
theorem step_of_run_eq_failure {f : Fault} (h : run o watch s = .failure f t) : step t = .fault f := by
  rcases run_cases o watch s with ⟨r, hr⟩ | htabled
  · cases h.symm.trans hr
  · rw [h] at htabled
    obtain ⟨k, -, hstep, -⟩ := htabled
    exact hstep

end

/-- Settles O47: the run loop starts after no step, at or below any limit. -/
theorem runEndsAsTabled : Obligations.RunEndsAsTabled :=
  fun _ _ _ hlive hhalt => run_asTabled hlive hhalt

/-- Settles O34: completed steps lead to the state a run leaves, and each of them keeps a machine legal. -/
theorem runStaysLegal : Obligations.RunStaysLegal := by
  intro o watch s hs
  rcases run_cases o watch s with ⟨r, hr⟩ | htabled
  · rw [hr]
    trivial
  · cases hrun : run o watch s <;> rw [hrun] at htabled
    case failure f t =>
      obtain ⟨k, hsteps, -⟩ := htabled
      exact hsteps.legal hs
    case stepLimitReached n t => exact htabled.2.legal hs
    case unfinished n t =>
      obtain ⟨-, hsteps, -⟩ := htabled
      exact hsteps.legal hs
    case refused r => exact htabled.elim

/-- Settles O48: the model looks no further only after `watch` steps, below the limit, and the limit is at most `watch`. -/
theorem limitedRunEnds : Obligations.LimitedRunEnds := by
  intro o m watch s hlive hhalt hmax hwatch
  refine ⟨?_, ?_⟩
  · have htabled := run_asTabled (watch := watch) hlive hhalt
    cases hrun : run o watch s <;> rw [hrun] at htabled
    case failure f t => exact .inl ⟨f, t, rfl⟩
    case stepLimitReached n t =>
      obtain rfl : n = m := Option.some.inj (htabled.1.symm.trans hmax)
      exact .inr ⟨t, rfl⟩
    case unfinished n t =>
      obtain ⟨rfl, -, hbelow⟩ := htabled
      exact absurd (hbelow m hmax) (Nat.not_lt.mpr hwatch)
    case refused r => exact htabled.elim
  · rintro rfl
    rw [run_of_live hlive hhalt, runLoop_of_limit hmax]

/-- Settles O51: the first step of the further run is the step that failed. -/
theorem failedRunFailsAgain : Obligations.FailedRunFailsAgain := by
  intro o o' watch watch' s t f h hhalt hmax hwatch
  have hstep := step_of_run_eq_failure h
  have hlive : t.status = .live := live_of_step_ne_refused (by simp [hstep])
  obtain ⟨watch', rfl⟩ := Nat.exists_eq_add_one.mpr hwatch
  rw [run_of_live hlive hhalt, runLoop_of_fault hmax hstep]

/-- Settles O50 by definition: neither the loop nor the two refusals read the trace option. -/
theorem traceChangesNothing : Obligations.TraceChangesNothing := fun _ _ _ _ => rfl

end Sys2Proof.Machine
end

section
/-! SUPPORT. The options record: each request sets its own field, and which lists of requests build a record
(spec/40_engine.md R102). -/

namespace Sys2Proof.Machine

/-- The record with the field asked for set to the value asked for. -/
def OptionRequest.set (o : Options) : OptionRequest → Options
  | .trace on => { o with trace := on }
  | .maxSteps limit => { o with maxSteps := limit }
  | .haltOnIllegal halt => { o with haltOnIllegal := halt }
  | .unrecognised _ => o

/-- The record has the value asked for; no record has what is not recognised. -/
def OptionRequest.HoldsIn (o : Options) : OptionRequest → Prop
  | .trace on => o.trace = on
  | .maxSteps limit => o.maxSteps = limit
  | .haltOnIllegal halt => o.haltOnIllegal = halt
  | .unrecognised _ => False

theorem OptionRequest.holdsIn_set {r : OptionRequest} (hr : r.field? ≠ none) (o : Options) : r.HoldsIn (r.set o) := by
  cases r with
  | trace on => rfl
  | maxSteps limit => rfl
  | haltOnIllegal halt => rfl
  | unrecognised name => exact hr rfl

/-- A request for another field leaves what a request asked for. -/
theorem OptionRequest.HoldsIn.set {r q : OptionRequest} {o : Options} (h : r.HoldsIn o) (hq : q.field? ≠ r.field?) :
    r.HoldsIn (q.set o) := by
  cases q with
  | trace _ =>
    cases r with
    | trace _ => exact absurd rfl hq
    | _ => exact h
  | maxSteps _ =>
    cases r with
    | maxSteps _ => exact absurd rfl hq
    | _ => exact h
  | haltOnIllegal _ =>
    cases r with
    | haltOnIllegal _ => exact absurd rfl hq
    | _ => exact h
  | unrecognised _ => exact h

/-- The first request, when it is recognised, is set, and the others build over it. -/
theorem buildOptions_cons_eq_ok {o o' : Options} {q : OptionRequest} {rs : List OptionRequest} :
    buildOptions o (q :: rs) = .ok o' ↔ q.field? ≠ none ∧ buildOptions (q.set o) rs = .ok o' := by
  cases q <;> simp [buildOptions, OptionRequest.set]

/-- A list of requests builds a record exactly when each of them is recognised. -/
theorem buildOptions_ok_iff (o : Options) (rs : List OptionRequest) :
    (∃ o', buildOptions o rs = .ok o') ↔ ∀ r ∈ rs, r.field? ≠ none := by
  induction rs generalizing o with
  | nil => simp [buildOptions]
  | cons q rs ih => simp only [buildOptions_cons_eq_ok, exists_and_left, ih, List.forall_mem_cons]

theorem OptionRequest.field?_eq_none {r : OptionRequest} : r.field? = none ↔ ∃ name, r = .unrecognised name := by
  cases r <;> simp

/-- What the record built over has of a field, the record built has too, when no request is for that field. -/
theorem buildOptions_keeps {o o' : Options} {r : OptionRequest} {rs : List OptionRequest}
    (h : buildOptions o rs = .ok o') (hr : r.HoldsIn o) (hrs : ∀ q ∈ rs, q.field? ≠ r.field?) : r.HoldsIn o' := by
  induction rs generalizing o with
  | nil => cases h; exact hr
  | cons q rs ih =>
    obtain ⟨hq, hrest⟩ := List.forall_mem_cons.mp hrs
    exact ih (buildOptions_cons_eq_ok.mp h).2 (hr.set hq) hrest

/-- The last request for a field is what the record built has of it. -/
theorem buildOptions_holds_last {o o' : Options} {r : OptionRequest} {before after : List OptionRequest}
    (h : buildOptions o (before ++ r :: after) = .ok o') (hafter : ∀ q ∈ after, q.field? ≠ r.field?) : r.HoldsIn o' := by
  rw [buildOptions_append] at h
  cases hbefore : buildOptions o before with
  | error e => simp [hbefore] at h
  | ok o₁ =>
    rw [hbefore] at h
    obtain ⟨hr, hrest⟩ := buildOptions_cons_eq_ok.mp h
    exact buildOptions_keeps hrest (r.holdsIn_set hr o₁) hafter

/-- In a list that asks for no field twice, each request is the last for its field. -/
theorem buildOptions_holds {o o' : Options} {r : OptionRequest} {rs : List OptionRequest}
    (h : buildOptions o rs = .ok o') (hrs : rs.Pairwise fun q r => q.field? ≠ r.field?) (hr : r ∈ rs) : r.HoldsIn o' := by
  obtain ⟨before, after, rfl⟩ := List.append_of_mem hr
  obtain ⟨-, htail, -⟩ := List.pairwise_append.mp hrs
  exact buildOptions_holds_last h fun q hq => ((List.pairwise_cons.mp htail).1 q hq).symm

/-- Settles O49: a field asked for holds the one request for it, and a field not asked for the value it had. -/
theorem optionsAreChecked : Obligations.OptionsAreChecked := by
  refine ⟨rfl, fun o requests name hmem => ?_, fun o requests hrecognised hpairwise => ?_,
    fun o watch s => run_of_continue⟩
  · cases hbuild : buildOptions o requests with
    | error e => exact ⟨e, rfl⟩
    | ok o' => exact absurd rfl ((buildOptions_ok_iff o requests).mp ⟨o', hbuild⟩ _ hmem)
  · obtain ⟨o', hbuild⟩ := (buildOptions_ok_iff o requests).mpr fun r hr hnone => by
      obtain ⟨name, rfl⟩ := OptionRequest.field?_eq_none.mp hnone
      exact hrecognised name hr
    exact ⟨o', hbuild, fun on => buildOptions_holds hbuild hpairwise,
      fun limit => buildOptions_holds hbuild hpairwise, fun halt => buildOptions_holds hbuild hpairwise,
      buildOptions_keeps (r := .trace o.trace) hbuild rfl,
      buildOptions_keeps (r := .maxSteps o.maxSteps) hbuild rfl,
      buildOptions_keeps (r := .haltOnIllegal o.haltOnIllegal) hbuild rfl⟩

end Sys2Proof.Machine
end

section
/-! SUPPORT. The words of a row of the mask and match table, and what COMMIT does for an instruction that writes one register
and no CSR (spec/30_encoding.md R77; spec/40_engine.md R93): AUIPC and JAL (spec/41_upper_and_jump.md R110, R111). -/

namespace Sys2Proof

/-- A word that matches a row under its mask has the row's class (R77). -/
theorem classify_of_and_mask {w : InstrWord} {row : OpcodeRow} (hrow : row ∈ opcodeTable)
    (hw : w &&& row.mask = row.pattern) : classify w = row.itype :=
  (opcodeRow_accepts_iff w row hrow).mp (beq_iff_eq.mpr hw)

namespace Machine

/-- COMMIT of one register write and no CSR write: the result in `rd` unless it is `x[0]` (10_state.md R22), and every other
register, every CSR and the id as before. -/
theorem Hart.commit_rdWrite_frame {n : Nat} (h : Hart n) (rd : RegIdx) (v : BitVec n) (redirect : Option (BitVec n)) :
    let h' := h.commit { rdWrite := some (rd, v), redirect := redirect }
    h'.readX rd = (if rd = 0 then 0 else v) ∧ (∀ r, r ≠ rd → h'.readX r = h.readX r) ∧
      (∀ a, h'.readCsr a = h.readCsr a) ∧ h'.id = h.id := by
  refine ⟨?_, fun r hr => h.readX_commit_of_ne _ r fun heq => hr (Option.some.inj heq).symm,
    h.readCsr_commit _, h.commit_id _⟩
  rw [Hart.readX_commit, Hart.commitRd, Hart.readX_writeX, if_pos rfl]

/-- Settles O18: AUIPC's one COMMIT writes the pc-relative sum to rd and redirects nothing. -/
theorem auipcAddsUpperImmediateToPc : Obligations.AuipcAddsUpperImmediateToPc := by
  refine ⟨fun w hw => ?_, fun rd imm s => ?_⟩
  · exact decode_of_auipc (classify_of_and_mask (row := ⟨.auipc, 0x0000007F#32, 0x00000017#32⟩) (by decide) hw)
  · obtain ⟨hrd, hother, hcsr, hid⟩ := s.hart0.commit_rdWrite_frame rd (pcRelative s.hart0 imm) none
    exact ⟨_, rfl, hrd, rfl, hother, hcsr, hid⟩

/-- Settles O19: JAL's one COMMIT writes the link to rd and redirects the pc by the offset. -/
theorem jalLinksAndJumps : Obligations.JalLinksAndJumps := by
  refine ⟨fun w hw => ?_, fun rd imm s => ?_⟩
  · exact decode_of_jal (classify_of_and_mask (row := ⟨.jal, 0x0000007F#32, 0x0000006F#32⟩) (by decide) hw)
  · obtain ⟨hrd, hother, hcsr, hid⟩ :=
      s.hart0.commit_rdWrite_frame rd (linkValue s.hart0) (some (pcRelative s.hart0 imm))
    exact ⟨_, rfl, hrd, rfl, hother, hcsr, hid⟩

end Machine
end Sys2Proof
end

section
/-! SUPPORT. ADDI: its words, and its one COMMIT (spec/42_integer_immediate.md R120). -/

namespace Sys2Proof.Machine

/-- Settles O20: ADDI's one COMMIT writes the sum, of rs1 as it was before, to rd and redirects nothing. -/
theorem addiAddsImmediate : Obligations.AddiAddsImmediate := by
  refine ⟨fun w hw => ?_, fun rd rs1 imm s => ?_⟩
  · exact decode_of_addi (classify_of_and_mask (row := ⟨.addi, 0x0000707F#32, 0x00000013#32⟩) (by decide) hw)
  · obtain ⟨hrd, hother, hcsr, hid⟩ :=
      s.hart0.commit_rdWrite_frame rd (s.hart0.readX rs1 + immValue _ imm) none
    exact ⟨_, rfl, hrd, rfl, hother, hcsr, hid⟩

end Sys2Proof.Machine
end

section
/-! SUPPORT. BNE: its words, and its one COMMIT, which writes the pc alone (spec/43_branch.md R130). -/

namespace Sys2Proof.Machine

/-- COMMIT of a redirect alone: every register, every CSR and the id as before. -/
theorem Hart.commit_redirect_frame {n : Nat} (h : Hart n) (redirect : Option (BitVec n)) :
    let h' := h.commit { redirect := redirect }
    (∀ r, h'.readX r = h.readX r) ∧ (∀ a, h'.readCsr a = h.readCsr a) ∧ h'.id = h.id :=
  ⟨h.readX_commit _, h.readCsr_commit _, h.commit_id _⟩

/-- Settles O21: BNE's one COMMIT writes no register and no CSR, and redirects the pc exactly when the registers differ. -/
theorem bneBranchesWhenRegistersDiffer : Obligations.BneBranchesWhenRegistersDiffer := by
  refine ⟨fun w hw => ?_, fun rs1 rs2 imm s => ?_⟩
  · exact decode_of_bne (classify_of_and_mask (row := ⟨.bne, 0x0000707F#32, 0x00001063#32⟩) (by decide) hw)
  · have hpc := nextPc_bne s.hart0 rs1 rs2 imm
    have hfallsThrough (heq : s.hart0.readX rs1 = s.hart0.readX rs2) := hpc.trans (if_neg (not_not.mpr heq))
    obtain ⟨hreg, hcsr, hid⟩ := s.hart0.commit_redirect_frame (redirectOf s.hart0 (.bne rs1 rs2 imm))
    exact ⟨_, rfl, fun hne => hpc.trans (if_pos hne), hfallsThrough,
      fun hsame => hfallsThrough (congrArg s.hart0.readX hsame), hreg, hcsr, hid⟩

end Sys2Proof.Machine
end

section
/-! SUPPORT. CSRRW, CSRRS and CSRRWI: their words, and the one access they share, which completes by one COMMIT on a present
CSR and fails on an absent one (spec/44_csr.md R140 to R146). -/

namespace Sys2Proof.Machine

/-- COMMIT of one register write and one CSR write: the result in `rd` unless it is `x[0]` (10_state.md R22), the new value in
the CSR (R28), the pc past the instruction, and every other register, every other CSR and the id as before. -/
theorem Hart.commit_rdWrite_csrWrite_frame {n : Nat} (h : Hart n) (rd : RegIdx) (v : BitVec n) (a : CsrAddr) (new : BitVec n)
    (hwf : SparseWF 0 h.csr) :
    let h' := h.commit { rdWrite := some (rd, v), csrWrite := some (a, new) }
    h'.readX rd = (if rd = 0 then 0 else v) ∧ h'.readCsr a = new ∧ h'.pc = h.pc + 4 ∧
      (∀ r, r ≠ rd → h'.readX r = h.readX r) ∧ (∀ b, b ≠ a → h'.readCsr b = h.readCsr b) ∧ h'.id = h.id := by
  obtain ⟨hrd, hother, -, hid⟩ := h.commit_rdWrite_frame rd v none
  refine ⟨hrd, ?_, rfl, hother, fun b hb => h.readCsr_commit_of_ne _ b hwf fun heq => hb (Option.some.inj heq).symm, hid⟩
  rw [Hart.readCsr_commit, Hart.commitCsr, Hart.readCsr_writeCsr h a a new hwf, if_pos rfl]

/-- The access on a present CSR, with its frame (R140, R144). -/
theorem csrAccess_of_present (i : Instr) (rd : RegIdx) {a : CsrAddr} {s : State} (new : BitVec s.params.xlen.bits)
    (hwf : SparseWF 0 s.hart0.csr) (hpresent : csrPresent s.params a = true) :
    ∃ h' : Hart s.params.xlen.bits, csrAccess i rd a s new = .next { s with hart0 := h' } ∧
      h'.readX rd = (if rd = 0 then 0 else s.hart0.readCsr a) ∧ h'.readCsr a = new ∧ h'.pc = s.hart0.pc + 4 ∧
      (∀ r, r ≠ rd → h'.readX r = s.hart0.readX r) ∧ (∀ b, b ≠ a → h'.readCsr b = s.hart0.readCsr b) ∧
      h'.id = s.hart0.id :=
  ⟨_, if_pos hpresent, s.hart0.commit_rdWrite_csrWrite_frame rd (s.hart0.readCsr a) a new hwf⟩

/-- A CSR instruction on an absent CSR fails with its own pc and word (R140). -/
theorem exec_of_csr_absent {i : Instr} {a : CsrAddr} {s : State} (ha : i.csr? = some a)
    (habsent : csrPresent s.params a = false) :
    exec i s = .fault (.illegalInstruction s.hart0.pc.toNat (encode i)) := by
  rcases exec_cases i s with ⟨e, -, -, -, hpresent⟩ | ⟨b, -, -, he⟩
  · exact absurd (hpresent a ha) (by simp [habsent])
  · exact he

/-- Settles O25: presence of the CSR is the one condition of EXECUTE, and the fetched word is its instruction's encoding. -/
theorem presenceAloneDecidesCsrAccess : Obligations.PresenceAloneDecidesCsrAccess := by
  refine ⟨fun i a s ha => ?_, fun w i a s hlive hfetch hdecode ha habsent => ?_⟩
  · rw [exec_completes_iff, ha]
    exact ⟨fun h => h a rfl, fun hpresent b hb => Option.some.inj hb ▸ hpresent⟩
  · obtain ⟨-, hword⟩ := encodeInvertsDecode w i hdecode
    rw [step_of_decode_ok hlive hfetch hdecode, exec_of_csr_absent ha habsent, hword]

/-- Settles O22: CSRRW is the access with rs1, as it was before, for the CSR's new value. -/
theorem csrrwReplacesCsr : Obligations.CsrrwReplacesCsr := by
  refine ⟨fun w hw => ?_, fun rd a rs1 s hwf => ⟨csrAccess_of_present _ rd _ hwf, exec_of_csr_absent rfl⟩⟩
  exact decode_of_csrrw (classify_of_and_mask (row := ⟨.csrrw, 0x0000707F#32, 0x00001073#32⟩) (by decide) hw)

/-- Settles O23: CSRRS is the access with the OR of the CSR and rs1, both as they were before, for the CSR's new value. -/
theorem csrrsSetsBits : Obligations.CsrrsSetsBits := by
  refine ⟨fun w hw => ?_, fun rd a rs1 s hwf => ⟨csrAccess_of_present _ rd _ hwf, exec_of_csr_absent rfl⟩⟩
  exact decode_of_csrrs (classify_of_and_mask (row := ⟨.csrrs, 0x0000707F#32, 0x00002073#32⟩) (by decide) hw)

/-- The immediate is below 2^XLEN, so its vector is the same number (30_encoding.md R68). -/
theorem toNat_uimmValue (x : Xlen) (u : Uimm) : (uimmValue x.bits u).toNat = u.val := by
  have hx : 2 ^ 5 ≤ 2 ^ x.bits := Nat.pow_le_pow_right (by decide) (by cases x <;> decide)
  exact (BitVec.toNat_ofNat ..).trans (Nat.mod_eq_of_lt (u.isLt.trans_le hx))

/-- Settles O24: CSRRWI is the access with the immediate for the CSR's new value. -/
theorem csrrwiWritesImmediate : Obligations.CsrrwiWritesImmediate := by
  refine ⟨fun w hw => ?_, fun rd a u s hwf => ⟨fun hpresent => ?_, exec_of_csr_absent rfl⟩⟩
  · exact decode_of_csrrwi (classify_of_and_mask (row := ⟨.csrrwi, 0x0000707F#32, 0x00005073#32⟩) (by decide) hw)
  · obtain ⟨h', hexec, hrd, hcsr, hframe⟩ :=
      csrAccess_of_present (.csrrwi rd a u) rd (uimmValue _ u) hwf hpresent
    exact ⟨h', hexec, hrd, (congrArg BitVec.toNat hcsr).trans (toNat_uimmValue _ u), hframe⟩

/-- Registers that agree but for `x[0]` agree, for it reads as 0 in both (10_state.md R22). -/
theorem Hart.readX_eq_of_ne_zero {n : Nat} {h h' : Hart n} (hother : ∀ r, r ≠ 0 → h'.readX r = h.readX r) (r : RegIdx) :
    h'.readX r = h.readX r := by
  by_cases hr : r = 0
  · rw [hr, Hart.readX_zero, Hart.readX_zero]
  · exact hother r hr

/-- Settles O26: the access writes the CSR whatever rd is, and what it writes for rs1 = x0 is the CSR's old value. -/
theorem noCsrAccessIsSkipped : Obligations.NoCsrAccessIsSkipped := by
  intro a s hwf hpresent
  refine ⟨fun rs1 => ?_, fun rd => ?_, fun u => ?_⟩
  · obtain ⟨h', hexec, -, hcsr, -, hother, -⟩ := (csrrwReplacesCsr.2 0 a rs1 s hwf).1 hpresent
    exact ⟨h', hexec, hcsr, Hart.readX_eq_of_ne_zero hother⟩
  · obtain ⟨h', hexec, hrd, hcsr, -, -, hother, -⟩ := (csrrsSetsBits.2 rd a 0 s hwf).1 hpresent
    refine ⟨h', hexec, hrd, fun b => ?_⟩
    by_cases hb : b = a
    · rw [hb, hcsr, Hart.readX_zero]
      exact BitVec.or_zero
    · exact hother b hb
  · obtain ⟨h', hexec, -, hcsr, -, hother, -⟩ := (csrrwiWritesImmediate.2 0 a u s hwf).1 hpresent
    exact ⟨h', hexec, hcsr, Hart.readX_eq_of_ne_zero hother⟩

end Sys2Proof.Machine
end

section
/-! SUPPORT. How a step can fail: FETCH out of bounds, or a fetched word that is illegal, and in no other way
(spec/60_exceptions.md R160 to R163). -/

namespace Sys2Proof.Machine

/-- The words a machine with these parameters raises IllegalInstruction on (R161). -/
def IllegalWord (p : Params) (w : InstrWord) : Prop :=
  classify w = .unimplemented ∨
    ((classify w = .csrrw ∨ classify w = .csrrs ∨ classify w = .csrrwi) ∧ csrPresent p (fieldCsr w) = false)

/-- The fetch answers no word exactly when the four bytes do not fit (R162). -/
theorem State.fetch_eq_none_iff (s : State) : s.fetch = none ↔ s.mem.capacity < s.hart0.pc.toNat + 4 := by
  rw [State.fetch_eq]
  split_ifs with hin <;> simpa using hin

/-- A word that decodes is illegal exactly when its instruction names an absent CSR (44_csr.md R140). -/
theorem illegalWord_of_decode_ok {p : Params} {w : InstrWord} {i : Instr} (hdecode : decode w = .ok i) :
    IllegalWord p w ↔ ∃ a, i.csr? = some a ∧ csrPresent p a = false := by
  have himplemented : classify w ≠ .unimplemented := decode_eq_ok_iff.mp ⟨i, hdecode⟩
  simp [IllegalWord, himplemented, csr?_of_decode hdecode, and_assoc]

/-- A word that does not decode is illegal (30_encoding.md R78). -/
theorem illegalWord_of_decode_error {p : Params} {w : InstrWord} {r : Reject} (hdecode : decode w = .error r) :
    IllegalWord p w := by
  refine .inl (by_contra fun himplemented => ?_)
  obtain ⟨i, hi⟩ := decode_eq_ok_iff.mpr himplemented
  cases hdecode.symm.trans hi

/-- A live machine's step on an illegal word fails at its pc, with that word (R161). -/
theorem step_of_illegalWord {s : State} {w : InstrWord} (hlive : s.status = .live) (hfetch : s.fetch = some w)
    (hillegal : IllegalWord s.params w) : step s = .fault (.illegalInstruction s.hart0.pc.toNat w) := by
  cases hdecode : decode w with
  | error r => exact step_of_decode_error hlive hfetch hdecode
  | ok i =>
    obtain ⟨a, ha, habsent⟩ := (illegalWord_of_decode_ok hdecode).mp hillegal
    exact presenceAloneDecidesCsrAccess.2 w i a s hlive hfetch hdecode ha habsent

/-- Everything a step can fail with, and when: nothing else is raised (R163). -/
theorem step_eq_fault_iff (s : State) (f : Fault) :
    step s = .fault f ↔ s.status = .live ∧
      ((s.fetch = none ∧ f = .fetchOutOfBounds s.hart0.pc.toNat) ∨
        ∃ w, s.fetch = some w ∧ IllegalWord s.params w ∧ f = .illegalInstruction s.hart0.pc.toNat w) := by
  constructor
  · intro h
    rcases step_cases s with ⟨-, he⟩ | ⟨hlive, hnone, he⟩ | ⟨w, r, hlive, hw, hr, he⟩ | ⟨w, i, hlive, hw, hi, he⟩
    · cases he.symm.trans h
    · exact ⟨hlive, .inl ⟨hnone, Host.Outcome.fault.inj (h.symm.trans he)⟩⟩
    · exact ⟨hlive, .inr ⟨w, hw, illegalWord_of_decode_error hr, Host.Outcome.fault.inj (h.symm.trans he)⟩⟩
    · rcases exec_cases i s with ⟨e, hx, -⟩ | ⟨a, ha, habsent, -⟩
      · cases (he.trans hx).symm.trans h
      · have hillegal : IllegalWord s.params w := (illegalWord_of_decode_ok hi).mpr ⟨a, ha, habsent⟩
        have hfault := step_of_illegalWord hlive hw hillegal
        exact ⟨hlive, .inr ⟨w, hw, hillegal, Host.Outcome.fault.inj (h.symm.trans hfault)⟩⟩
  · rintro ⟨hlive, ⟨hnone, rfl⟩ | ⟨w, hw, hillegal, rfl⟩⟩
    · exact step_of_fetch_eq_none hlive hnone
    · exact step_of_illegalWord hlive hw hillegal

/-- Settles O13: of the two ways to fail, FetchOutOfBounds is the one of a fetch that does not fit. -/
theorem fetchOutOfBoundsExactly : Obligations.FetchOutOfBoundsExactly := by
  intro s p
  simp [step_eq_fault_iff, State.fetch_eq_none_iff]

/-- Settles O14: of the two ways to fail, IllegalInstruction is the one of an illegal word that was fetched. -/
theorem illegalInstructionExactly : Obligations.IllegalInstructionExactly := by
  intro s p w
  rw [step_eq_fault_iff]
  constructor
  · rintro ⟨hlive, ⟨-, hf⟩ | ⟨v, hfetch, hillegal, hf⟩⟩
    · cases hf
    · cases hf
      exact ⟨hlive, hfetch, rfl, hillegal⟩
  · rintro ⟨hlive, hfetch, rfl, hillegal⟩
    exact ⟨hlive, .inr ⟨w, hfetch, hillegal, rfl⟩⟩

/-- Settles O16: a live machine's step is not refused, and has two ways to fail. -/
theorem stepsFailInTwoWaysOnly : Obligations.StepsFailInTwoWaysOnly := by
  intro s hlive
  cases h : step s with
  | next t => exact .inl ⟨t, rfl⟩
  | refused r => exact absurd h (step_ne_refused hlive r)
  | fault f =>
    obtain ⟨-, ⟨-, rfl⟩ | ⟨w, hfetch, -, rfl⟩⟩ := (step_eq_fault_iff s f).mp h
    · exact .inr (.inl rfl)
    · exact .inr (.inr ⟨w, hfetch, rfl⟩)

end Sys2Proof.Machine
end

section
/-! SUPPORT. How fresh storage fails, and with it create and reset (spec/60_exceptions.md R165;
spec/70_reset_and_hazards.md R180, R184, R186). -/

namespace Sys2Proof.Machine

section

variable {alloc : Allocation} {capacity : Nat} {content : List Descriptor}

theorem freshMemory_of_not_succeeds (hfails : alloc.succeeds = false) :
    freshMemory alloc capacity content = .error .outOfMemory := by
  simp [freshMemory, hfails]

/-- Fresh storage is made when every descriptor fits. -/
theorem freshMemory_of_fits (hsucceeds : alloc.succeeds = true) (hfits : ∀ d ∈ content, d.Fits capacity) :
    ∃ m, freshMemory alloc capacity content = .ok m := by
  have happlied := applyDescriptors_of_fits ⟨capacity, []⟩ content hfits
  exact ⟨_, (freshMemory_eq_ok ..).mpr ⟨hsucceeds, Prod.ext rfl happlied⟩⟩

/-- The first descriptor that does not fit ends the making of fresh storage with its error. -/
theorem freshMemory_of_not_fits {before after : List Descriptor} {d : Descriptor} (hsucceeds : alloc.succeeds = true)
    (hbefore : ∀ e ∈ before, e.Fits capacity) (hd : ¬ d.Fits capacity) :
    freshMemory alloc capacity (before ++ d :: after) = .error (.descriptorOutOfBounds d.offset d.bytes.length) := by
  simp only [freshMemory, hsucceeds, if_true, applyDescriptors_of_not_fits ⟨capacity, []⟩ before after d hbefore hd]

end

/-- create refuses a capacity of 0, or one that the host cannot address once rounded (R165). -/
theorem create_of_bad_capacity {p : Params} {alloc : Allocation} {req : Nat} (content : List Descriptor)
    (hbad : req = 0 ∨ alloc.addressable < roundUpToPage p.pageSize req) :
    create p alloc req content 1 = .error (.capacityError req) := by
  simp [create, hbad]

/-- create ends with the error of its fresh storage, once the checks before it pass (R180). -/
theorem create_of_freshMemory_error {p : Params} {alloc : Allocation} {req : Nat} {content : List Descriptor}
    {e : ConstructionError} (hreq : 0 < req) (hround : roundUpToPage p.pageSize req ≤ alloc.addressable)
    (hfresh : freshMemory alloc (roundUpToPage p.pageSize req) content = .error e) :
    create p alloc req content 1 = .error e := by
  simp [create, hfresh, hreq.ne', hround.not_gt]

/-- Settles O39: past the check of the capacity, create ends as the making of its fresh storage does. -/
theorem createChecksInOrder : Obligations.CreateChecksInOrder := by
  intro p alloc req content
  refine ⟨create_of_bad_capacity content, fun hreq hround => ⟨fun hfails => ?_, fun hsucceeds => ⟨?_, fun hfits => ?_⟩⟩⟩
  · exact create_of_freshMemory_error hreq hround (freshMemory_of_not_succeeds hfails)
  · rintro before after d rfl hbefore hd
    exact create_of_freshMemory_error hreq hround (freshMemory_of_not_fits hsucceeds hbefore hd)
  · obtain ⟨m, hfresh⟩ := freshMemory_of_fits hsucceeds hfits
    exact ⟨_, (create_eq_ok ..).mpr ⟨rfl, hreq.ne', hround, m, hfresh, rfl⟩, rfl, rfl⟩

/-- A live machine whose reset gets no fresh storage fails with that error and is Defunct (R186). -/
theorem hostReset_of_freshMemory_error {alloc : Allocation} {content : List Descriptor} {s : State}
    {e : ConstructionError} (hlive : s.status = .live) (hfresh : freshMemory alloc s.mem.capacity content = .error e) :
    ∃ t, hostReset alloc content s = .failed e t ∧ t.status = .defunct :=
  ⟨s.released, (hostReset_eq_failed ..).mpr ⟨hlive, hfresh, rfl⟩, s.released_status⟩

/-- Settles O42: a live machine's reset ends as the making of its fresh storage does. -/
theorem resetFailsOrSucceeds : Obligations.ResetFailsOrSucceeds := by
  intro alloc content s hlive
  refine ⟨fun hfails => ?_, fun hsucceeds => ⟨?_, fun hfits => ?_⟩⟩
  · exact hostReset_of_freshMemory_error hlive (freshMemory_of_not_succeeds hfails)
  · rintro before after d rfl hbefore hd
    exact hostReset_of_freshMemory_error hlive (freshMemory_of_not_fits hsucceeds hbefore hd)
  · obtain ⟨m, hfresh⟩ := freshMemory_of_fits hsucceeds hfits
    exact ⟨_, (hostReset_eq_ok ..).mpr ⟨hlive, m, hfresh, rfl⟩⟩

end Sys2Proof.Machine
end

section
/-! SUPPORT. The machine with a reset hart, which create, reset and destroy all leave: nothing of an earlier machine is in it
but the parameters and CAPACITY, and it is legal (spec/70_reset_and_hazards.md R180, R184, R185, R187, R188). -/

namespace Sys2Proof.Machine

/-- A machine of parameters `p` whose hart is as reset leaves it. -/
def State.fresh (p : Params) (status : Status) (m : Memory) : State :=
  { params := p, status := status, mem := m, hart0 := Hart.reset p }

/-- A released machine has CAPACITY zero bytes and a reset hart. -/
theorem State.released_eq_fresh (s : State) : s.released = .fresh s.params .defunct ⟨s.mem.capacity, []⟩ := rfl

section

variable {alloc : Allocation} {content : List Descriptor} {s : State}

/-- A live machine that gets fresh storage keeps its parameters alone (R184). -/
theorem hostReset_of_freshMemory_ok {m : Memory} (hlive : s.status = .live)
    (hfresh : freshMemory alloc s.mem.capacity content = .ok m) :
    hostReset alloc content s = .ok (.fresh s.params .live m) :=
  (hostReset_eq_ok ..).mpr ⟨hlive, m, hfresh, by rw [State.fresh, hlive]⟩

/-- A live machine that gets no fresh storage is released (R186). -/
theorem hostReset_failed_released {e : ConstructionError} (hlive : s.status = .live)
    (hfresh : freshMemory alloc s.mem.capacity content = .error e) :
    hostReset alloc content s = .failed e s.released :=
  (hostReset_eq_failed ..).mpr ⟨hlive, hfresh, rfl⟩

end

/-- Settles O41: what a reset answers is made of the parameters, CAPACITY, the allocation and the list alone; and a reset
that succeeds keeps parameters and CAPACITY. -/
theorem resetLeavesNoResidue : Obligations.ResetLeavesNoResidue := by
  constructor
  · intro alloc content s s' hlive hlive' hparams hcapacity
    cases hfresh : freshMemory alloc s.mem.capacity content with
    | error e =>
      rw [hostReset_failed_released hlive hfresh, hostReset_failed_released hlive' (hcapacity ▸ hfresh),
        State.released_eq_fresh, State.released_eq_fresh, hparams, hcapacity]
    | ok m =>
      rw [hostReset_of_freshMemory_ok hlive hfresh, hostReset_of_freshMemory_ok hlive' (hcapacity ▸ hfresh), hparams]
  · intro alloc content s t h
    obtain ⟨hlive, m, hm, rfl⟩ := (hostReset_eq_ok ..).mp h
    obtain ⟨hcapacity, -⟩ := freshMemory_content hm
    exact (hostReset_eq_ok ..).mpr ⟨hlive, m, hcapacity.symm ▸ hm, rfl⟩

/-- Fresh storage is in canonical form: applying descriptors keeps it. -/
theorem freshMemory_wf {alloc : Allocation} {capacity : Nat} {content : List Descriptor} {m : Memory}
    (h : freshMemory alloc capacity content = .ok m) : m.wf := by
  obtain ⟨-, happly⟩ := (freshMemory_eq_ok ..).mp h
  obtain ⟨hwf, -⟩ := applyDescriptors_wf ⟨capacity, []⟩ content (Memory.empty_wf capacity)
  rwa [happly] at hwf

/-- A reset hart is legal, for CSR_RESET is; so the machine is when its memory is. -/
theorem State.fresh_legal {p : Params} (status : Status) {m : Memory} (hp : paramsLegal p) (hm : m.wf)
    (hcapacity : m.capacity % p.pageSize = 0) : (State.fresh p status m).Legal := by
  obtain ⟨hpage, hcsr, hstored⟩ := hp
  exact {
    params := ⟨hpage, hcsr, hstored⟩
    mem := hm
    capacity := hcapacity
    id := Hart.reset_id p
    x0 := (Hart.reset_registers p 0).1
    csr := hcsr
    csrStored := hstored }

/-- A legal machine stays legal when it is released: no byte is listed, and CAPACITY stays (R187). -/
theorem State.Legal.released {s : State} (h : s.Legal) : s.released.Legal :=
  State.fresh_legal .defunct h.params (Memory.empty_wf _) h.capacity

/-- destroy succeeds exactly on a live machine, and releases it (R187). -/
theorem hostDestroy_eq_ok (s t : State) : hostDestroy s = .ok t ↔ s.status = .live ∧ t = s.released := by
  unfold hostDestroy
  cases s.status with
  | defunct => simp
  | live => simp [eq_comm]

/-- Settles O45: each operation leaves a reset hart, with fresh storage of whole pages or with no byte listed. -/
theorem lifecycleKeepsLegal : Obligations.LifecycleKeepsLegal := by
  refine ⟨fun p alloc req content count s hp h => ?_, fun alloc content s hs => ?_, fun s t hs h => ?_⟩
  · obtain ⟨-, -, -, m, hm, rfl⟩ := (create_eq_ok ..).mp h
    obtain ⟨hcapacity, -⟩ := freshMemory_content hm
    exact State.fresh_legal .live hp (freshMemory_wf hm) (hcapacity ▸ roundUpToPage_mod ..)
  · cases h : hostReset alloc content s with
    | ok t =>
      obtain ⟨-, m, hm, rfl⟩ := (hostReset_eq_ok ..).mp h
      obtain ⟨hcapacity, -⟩ := freshMemory_content hm
      exact State.fresh_legal s.status hs.params (freshMemory_wf hm) (hcapacity ▸ hs.capacity)
    | failed e t =>
      obtain ⟨-, -, rfl⟩ := (hostReset_eq_failed ..).mp h
      exact hs.released
    | refused r => trivial
  · obtain ⟨-, rfl⟩ := (hostDestroy_eq_ok s t).mp h
    exact hs.released

/-- create with a hart count of 0 makes no machine (R181). -/
theorem create_of_hartCount_zero (p : Params) (alloc : Allocation) (req : Nat) (content : List Descriptor) :
    create p alloc req content 0 = .error .hartCountZero := if_pos rfl

/-- create with a hart count of 2 or more makes no machine (R181). -/
theorem create_of_two_le_hartCount (p : Params) (alloc : Allocation) (req : Nat) (content : List Descriptor) {count : Nat}
    (hcount : 2 ≤ count) : create p alloc req content count = .error (.hartCountUnsupported count) := by
  have hzero : count ≠ 0 := by omega
  have hone : count ≠ 1 := by omega
  rw [create, if_neg hzero, if_pos hone]

/-- Settles O38: the hart count is checked before anything else, and create succeeds only past that check. -/
theorem createRejectsOtherHartCounts : Obligations.CreateRejectsOtherHartCounts := by
  intro p alloc req content count
  refine ⟨?_, create_of_two_le_hartCount p alloc req content, fun s h => ((create_eq_ok ..).mp h).1⟩
  rintro rfl
  exact create_of_hartCount_zero p alloc req content

/-- A Defunct machine has no reset (R188). -/
theorem hostReset_of_defunct {s : State} (hdefunct : s.status = .defunct) (alloc : Allocation)
    (content : List Descriptor) : hostReset alloc content s = .refused .defunctMachine := by
  simp only [hostReset, hdefunct]

/-- A Defunct machine has no destroy (R188). -/
theorem hostDestroy_of_defunct {s : State} (hdefunct : s.status = .defunct) :
    hostDestroy s = .refused .defunctMachine := by
  simp only [hostDestroy, hdefunct]

/-- Settles O44: a failed reset and a destroy release the machine, and every operation looks at the status first. -/
theorem defunctMachinesAreRefused : Obligations.DefunctMachinesAreRefused := by
  refine ⟨fun alloc content s t e h => ?_, fun s t h => ?_, fun s hdefunct => ?_⟩
  · obtain ⟨-, -, rfl⟩ := (hostReset_eq_failed ..).mp h
    exact s.released_status
  · obtain ⟨-, rfl⟩ := (hostDestroy_eq_ok s t).mp h
    exact s.released_status
  · exact ⟨step_of_defunct hdefunct, hostDestroy_of_defunct hdefunct, hostReset_of_defunct hdefunct,
      fun _ _ => run_of_defunct hdefunct⟩

end Sys2Proof.Machine
end

section
/-! SUPPORT. A list of requests that asks for a field twice, or holds an unrecognised option (spec/40_engine.md R102, log
entries 13 and 24). -/

namespace Sys2Proof.Machine

/-- A list without an unrecognised option builds a record. -/
theorem buildOptions_ok_of_recognised (o : Options) {rs : List OptionRequest} (h : ∀ name, .unrecognised name ∉ rs) :
    ∃ o', buildOptions o rs = .ok o' :=
  (buildOptions_ok_iff o rs).mpr fun _ hr hnone =>
    have ⟨name, hname⟩ := OptionRequest.field?_eq_none.mp hnone
    h name (hname ▸ hr)

/-- An unrecognised option past a list that builds a record is the error, whatever comes after it. -/
theorem buildOptions_append_unrecognised (o : Options) {before : List OptionRequest} (name : String)
    (after : List OptionRequest) (hbefore : ∀ n, .unrecognised n ∉ before) :
    buildOptions o (before ++ .unrecognised name :: after) = .error { name := name } := by
  obtain ⟨o₁, hbuild⟩ := buildOptions_ok_of_recognised o hbefore
  rw [buildOptions_append, hbuild]
  rfl

/-- A list with a recognised request between two lists without an unrecognised option builds a record, and the record has
what the request asked for when no later one is for the same field. -/
theorem buildOptions_holds_requested (o : Options) {r : OptionRequest} {before after : List OptionRequest}
    (hr : r.field? ≠ none) (hbefore : ∀ name, .unrecognised name ∉ before) (hafter : ∀ name, .unrecognised name ∉ after)
    (hlast : ∀ q ∈ after, q.field? ≠ r.field?) :
    ∃ o', buildOptions o (before ++ r :: after) = .ok o' ∧ r.HoldsIn o' := by
  have hall (name : String) : .unrecognised name ∉ before ++ r :: after := by
    have hne : .unrecognised name ≠ r := fun heq => hr (OptionRequest.field?_eq_none.mpr ⟨name, heq.symm⟩)
    simp [hbefore, hafter, hne]
  obtain ⟨o', hbuild⟩ := buildOptions_ok_of_recognised o hall
  exact ⟨o', hbuild, buildOptions_holds_last hbuild hlast⟩

/-- Settles O52: the requests before the first unrecognised option build a record, and the last request for a field is
held. -/
theorem repeatedRequestsAndFirstError : Obligations.RepeatedRequestsAndFirstError := by
  intro o before after hbefore
  refine ⟨fun name => buildOptions_append_unrecognised o name after hbefore, fun hafter => ⟨?_, fun on => ?_,
    fun limit => ?_, fun halt => ?_⟩⟩
  · exact buildOptions_ok_of_recognised o fun name hmem =>
      (List.mem_append.mp hmem).elim (hbefore name) (hafter name)
  · exact buildOptions_holds_requested o (r := .trace on) (by simp) hbefore hafter
  · exact buildOptions_holds_requested o (r := .maxSteps limit) (by simp) hbefore hafter
  · exact buildOptions_holds_requested o (r := .haltOnIllegal halt) (by simp) hbefore hafter

end Sys2Proof.Machine
end

section
/-! SUPPORT. The example words of the instructions (spec/41_upper_and_jump.md to spec/44_csr.md, R110 to R143). -/

namespace Sys2Proof

/-- The word that encodes a well-formed instruction decodes to it. -/
theorem decode_of_encode_eq {i : Instr} {w : InstrWord} (hwf : wellFormed i = true) (hw : encode i = w) :
    decode w = .ok i := hw ▸ decode_encode hwf

/-- Settles O10: each word is the encoding of its instruction, which is well formed. -/
theorem exampleWordsDecode : Obligations.ExampleWordsDecode :=
  ⟨decode_of_encode_eq (i := .auipc 5 0x12345000) (by decide) (by decide),
    decode_of_encode_eq (i := .jal 1 8) (by decide) (by decide),
    decode_of_encode_eq (i := .addi 10 0 10) (by decide) (by decide),
    decode_of_encode_eq (i := .bne 1 0 (-8)) (by decide) (by decide),
    decode_of_encode_eq (i := .csrrw 2 0x340 1) (by decide) (by decide),
    decode_of_encode_eq (i := .csrrs 3 0x340 1) (by decide) (by decide),
    decode_of_encode_eq (i := .csrrwi 4 0x340 31) (by decide) (by decide)⟩

end Sys2Proof
end
